-- ==== Sys2Proof/Word.lean ====
section
/-! DEFINITION. The word types of the CFP. "Every value is an unsigned bit vector of a stated width" (R8). -/

namespace Sys2Proof

/-- A symbol of the input stream or of the payload output stream (R7, R60). -/
abbrev Byte := BitVec 8

/-- A datapath register or a status register (R7). -/
abbrev Word := BitVec 32

/-- A command word `cmd[10:0]` (R80). -/
abbrev CmdWord := BitVec 11

/-- A byte index inside a fixed-size field (R22). -/
abbrev Idx := BitVec 3

end Sys2Proof
end

