-- ==== Sys2Proof/Syntax.lean ====
section
/-! DEFINITION. The command set of the CFP as syntax: one constructor per row of the opcode map (R81). Each command carries
the whole operand field `d = cmd[7:0]` of format C (R80), also where the command ignores it, so that no bit of a command word
is lost (log entry 7). -/

namespace Sys2Proof

/-- The four commands (R2, R81). -/
inductive Instr where
  /-- `NOP`, operand ignored (R82, R161). -/
  | nop (d : Byte)
  /-- `START sig` with `sig = d[0]`; `d[7:1]` must be 0 (R83, R162). -/
  | start (d : Byte)
  /-- `BYTE b`, the next byte of the stream (R84, R135). -/
  | byte (b : Byte)
  /-- `END`, operand ignored (R85, R163). -/
  | endStream (d : Byte)
  deriving DecidableEq, Repr

end Sys2Proof
end

