-- ==== Sys2Proof/WellFormed.lean ====
section
/-! DEFINITION. Which terms of Instr stand for a command word that is not reserved. -/

namespace Sys2Proof

/-- The one operand restriction of the command set: `START` needs `cmd[7:1] = 0` (R83); any other value of those seven bits
makes the word reserved (R86). Every operand of `NOP`, `BYTE` and `END` is legal (R82, R84, R85). -/
def Instr.wellFormed : Instr → Bool
  | .nop _ => true
  | .start d => d.extractLsb' 1 7 == 0#7
  | .byte _ => true
  | .endStream _ => true

end Sys2Proof
end

