-- ==== Sys2Proof/Decode.lean ====
section
/-! DEFINITION. Decoding of the 11-bit command word, total (R87), and the encoder written from the same tables (R80 to R86). -/

namespace Sys2Proof

/-- Why a word is reserved: the two cases of R86. -/
inductive ReservedWord where
  /-- `cmd[10] = 1`: opcodes 4 to 7. -/
  | opcode (op : BitVec 3)
  /-- `cmd[10:8] = 001` with `cmd[7:1]` not 0. -/
  | startOperand (d : Byte)
  deriving DecidableEq, Repr

/-- What the decoder reads in a word: a command, or a reserved word with the reason (R87). -/
inductive Decoded where
  | command (i : Instr)
  | reserved (why : ReservedWord)
  deriving DecidableEq, Repr

/-- `op = cmd[10:8]` (R80). -/
def opField (w : CmdWord) : BitVec 3 := w.extractLsb' 8 3

/-- `d = cmd[7:0]` (R80, R88). -/
def operandField (w : CmdWord) : Byte := w.extractLsb' 0 8

/-- `decode(cmd)` of R87. It does not look at the state (R80: "the decoding of a word never depends on PHASE"). -/
def decode (w : CmdWord) : Decoded :=
  let op := opField w
  let d := operandField w
  if op = 0#3 then .command (.nop d)
  else if op = 1#3 ∧ d.extractLsb' 1 7 = 0#7 then .command (.start d)
  else if op = 1#3 then .reserved (.startOperand d)
  else if op = 2#3 then .command (.byte d)
  else if op = 3#3 then .command (.endStream d)
  else .reserved (.opcode op)

/-- The instruction of a decoded word, where there is one. -/
def Decoded.instr? : Decoded → Option Instr
  | .command i => some i
  | .reserved _ => none

/-- The opcode of each command (R81). -/
def Instr.opcode : Instr → BitVec 3
  | .nop _ => 0#3
  | .start _ => 1#3
  | .byte _ => 2#3
  | .endStream _ => 3#3

/-- The operand field of each command (R81). -/
def Instr.operand : Instr → Byte
  | .nop d => d
  | .start d => d
  | .byte b => b
  | .endStream d => d

/-- The command word of a command: `op` in bits 10:8, `d` in bits 7:0 (R80). -/
def encode (i : Instr) : CmdWord := i.opcode ++ i.operand

/-- A row of the opcode table: a word is of the row when `word and mask = match` (R82 to R85). -/
structure OpcodeRow where
  mnemonic : String
  pattern : CmdWord
  mask : CmdWord
  deriving DecidableEq, Repr

/-- `word and mask = match`. -/
def OpcodeRow.covers (row : OpcodeRow) (w : CmdWord) : Bool := w &&& row.mask == row.pattern

/-- The opcode table, match and mask of R82 (`NOP`), R83 (`START`), R84 (`BYTE`), R85 (`END`). -/
def opcodeTable : List OpcodeRow :=
  [⟨"NOP", 0x000, 0x700⟩, ⟨"START", 0x100, 0x7FE⟩, ⟨"BYTE", 0x200, 0x700⟩, ⟨"END", 0x300, 0x700⟩]

/-- The mnemonic of a command in the opcode table. -/
def Instr.mnemonic : Instr → String
  | .nop _ => "NOP"
  | .start _ => "START"
  | .byte _ => "BYTE"
  | .endStream _ => "END"

/-- The command on the eleven pins that a number stands for, its bits numbered as the opcode table numbers them; bits at
`nbits` and above are 0 (log entry 11). -/
def tableBits (nbits w : Nat) : Nat := w % 2 ^ nbits

/-- The decoder on a word given as a number. A number that needs more than eleven bits is no command word (R80). -/
def decodeTableWord (nbits w : Nat) : Option Instr :=
  if tableBits nbits w < 2048 then (decode (BitVec.ofNat 11 (tableBits nbits w))).instr? else none

end Sys2Proof
end

