-- ==== Sys2Proof/Machine/Operands.lean ====
section
/-! DEFINITION. Operand forms, field assembly and byte order (R88, R93, R115, R116). -/

namespace Sys2Proof.Machine

/-- `zext_32(b)` (R8). -/
def zext32 (b : Byte) : Word := b.setWidth 32

/-- `sig = cmd[0]`, the operand of `START` (R83, R88): `true` is 1. -/
def startSig (d : Byte) : Bool := d.getLsbD 0

/-- `d[7:1] = 0`, what `START` demands of its operand (R83, R86). -/
def startSpareBitsZero (d : Byte) : Bool := d.extractLsb' 1 7 == 0#7

/-- `trunc_32((R << 8) or zext_32(b))`: a byte shifted into a big-endian field (R25, R26, R29, R63). -/
def shiftIn (r : Word) (b : Byte) : Word := (r <<< 8) ||| zext32 b

/-- The fold `tc(b0, b1, b2, b3) = b0 ‖ b1 ‖ b2 ‖ b3` (R93, R115). -/
def fold4 (b0 b1 b2 b3 : Byte) : Word := b0 ++ b1 ++ b2 ++ b3

/-- `byte0(t) = t[31:24]` (R115). -/
def byte0 (t : Word) : Byte := t.extractLsb' 24 8

/-- `byte1(t) = t[23:16]` (R115). -/
def byte1 (t : Word) : Byte := t.extractLsb' 16 8

/-- `byte2(t) = t[15:8]` (R115). -/
def byte2 (t : Word) : Byte := t.extractLsb' 8 8

/-- `byte3(t) = t[7:0]` (R115). -/
def byte3 (t : Word) : Byte := t.extractLsb' 0 8

/-- Unfold, the four bytes most significant first (R116); also `BE32` of R96. -/
def unfold4 (t : Word) : List Byte := [byte0 t, byte1 t, byte2 t, byte3 t]

/-- `sat_inc32(v)` (R9). -/
def satInc32 (v : Word) : Word := if v = 0xFFFFFFFF#32 then v else v + 1#32

end Sys2Proof.Machine
end

