-- ==== Sys2Proof/Machine/Crc.lean ====
section
/-! DEFINITION. The CRC unit: CRC-32 (ISO-HDLC), one byte at a time, least significant bit first (R100 to R104). -/

namespace Sys2Proof.Machine

/-- The generator polynomial in reflected form (R100). -/
def crcPoly : Word := 0xEDB88320#32

/-- The initial value of the accumulator (R100). -/
def crcInit : Word := 0xFFFFFFFF#32

/-- The final XOR (R100). -/
def crcXorOut : Word := 0xFFFFFFFF#32

/-- One pass of the loop of R101: `c(k)` from `c(k-1)`. -/
def crcShift (c : Word) : Word := if c.getLsbD 0 then (c >>> 1) ^^^ crcPoly else c >>> 1

/-- `n` passes of the loop. -/
def crcShifts : Nat → Word → Word
  | 0, c => c
  | n + 1, c => crcShifts n (crcShift c)

/-- `crc_upd(c, b)` (R101): the accumulator after one byte. -/
def crcUpd (c : Word) (b : Byte) : Word := crcShifts 8 (c ^^^ zext32 b)

/-- The accumulator after the bytes of `m`, first byte first (the loop of R102). -/
def crcFold (c : Word) (m : List Byte) : Word := m.foldl crcUpd c

/-- The computed checksum of a raw accumulator, `CRC_CALC` (R28). -/
def crcFinal (c : Word) : Word := c ^^^ crcXorOut

/-- `crc32(m)` (R102). -/
def crc32 (m : List Byte) : Word := crcFinal (crcFold crcInit m)

/-- The table entry `T[i] = crc_upd(zext_32(i), 0x00)` (R103). -/
def crcTable (i : Byte) : Word := crcUpd (zext32 i) 0x00#8

end Sys2Proof.Machine
end

