-- ==== Sys2Proof/Machine/State.lean ====
section
/-! DEFINITION. The state of the CFP: the twelve registers of R20, the registered event outputs of R45, and the inputs the
host presents at the coming clock edges (R44). -/

namespace Sys2Proof.Machine

/-- The eight values of PHASE (R21), in the order of their codes 0 to 7. EPHASE holds a value of the same type (R32). -/
inductive Phase where
  | idle | sig | len | type | data | crc | done | err
  deriving DecidableEq, Repr

/-- The four values of ERR (R31, R175), in the order of their codes 0 to 3. -/
inductive ErrCode where
  | noError | badSignature | truncated | checksumMismatch
  deriving DecidableEq, Repr

/-- The twelve registers, "the whole architectural state of the CFP" (R20). -/
structure Regs where
  /-- PHASE, 3 bits (R21). -/
  phase : Phase
  /-- IDX, 3 bits (R22). -/
  idx : Idx
  /-- SIGM, 1 bit (R23). -/
  sigm : Bool
  /-- LEN (R25). -/
  len : Word
  /-- TYPE (R26). -/
  type : Word
  /-- REM (R27). -/
  rem : Word
  /-- CRCACC, the raw accumulator (R28). -/
  crcacc : Word
  /-- CRCRX (R29). -/
  crcrx : Word
  /-- NCHUNK (R30). -/
  nchunk : Word
  /-- ERR, 2 bits (R31). -/
  err : ErrCode
  /-- EPHASE, 3 bits (R32). -/
  ephase : Phase
  /-- PERR, 1 bit (R33). -/
  perr : Bool
  deriving DecidableEq, Repr

/-- The event record of a step (R11). It is driven on registered outputs (R45), so State holds it (log entry 3). -/
structure Events where
  hdr : Bool
  plValid : Bool
  plData : Byte
  plLast : Bool
  ok : Bool
  err : Bool
  done : Bool
  perr : Bool
  deriving DecidableEq, Repr

/-- The command port and the reset pin as sampled at one rising edge of `clk` (R44). -/
structure PortSample where
  /-- `rst_n`, active low. -/
  rstN : Bool
  /-- `cmd_valid`. -/
  cmdValid : Bool
  /-- `cmd[10:0]`. -/
  cmd : CmdWord
  deriving DecidableEq, Repr

/-- The machine's state. -/
structure State where
  /-- The spec's registers (R20). -/
  regs : Regs
  /-- The event pins (R45): the record of the last edge. -/
  ev : Events
  /-- The MODEL's own field: the samples of the coming edges, the nearest first. Where it is empty the host presents no
  command (log entries 1 and 2). -/
  port : List PortSample
  deriving DecidableEq, Repr

/-- Why the CFP stops: never. "Nothing else faults", and the frame errors and the protocol error are next states (R186). -/
inductive Fault where
  deriving DecidableEq, Repr

/-- Why the model refuses. -/
inductive Refusal where
  /-- Raised by an arm of `exec` whose instruction has no meaning yet; safe. No arm raises it: all four commands have theirs. -/
  | notModelled (mnemonic : String)
  deriving DecidableEq, Repr

/-- The registers' reset values, the last column of R20. -/
def Regs.reset : Regs where
  phase := .idle
  idx := 0#3
  sigm := false
  len := 0x00000000#32
  type := 0x00000000#32
  rem := 0x00000000#32
  crcacc := 0xFFFFFFFF#32
  crcrx := 0x00000000#32
  nchunk := 0x00000000#32
  err := .noError
  ephase := .idle
  perr := false

/-- The event record with every field zero (R11). -/
def Events.none : Events where
  hdr := false
  plValid := false
  plData := 0x00#8
  plLast := false
  ok := false
  err := false
  done := false
  perr := false

/-- The state right after reset (R200): the reset state, no event, and nothing presented yet. -/
def State.reset : State where
  regs := Regs.reset
  ev := Events.none
  port := []

end Sys2Proof.Machine
end

