-- ==== Sys2Proof/Machine/Ops.lean ====
section
/-! DEFINITION. The operations the meanings share: the signature ROM, the event records, moving the parse position, the error
entry `raise` (R180) and the protocol error (R184), hardware reset (R200), and the edge with no command (R44). -/

namespace Sys2Proof.Machine

/-- `SIGROM[0..7]`, the signature constant (R47, R90). -/
def sigRom : List Byte := [0x89#8, 0x50#8, 0x4E#8, 0x47#8, 0x0D#8, 0x0A#8, 0x1A#8, 0x0A#8]

/-- `SIGROM[i]`; a 3-bit index is always inside the eight entries. -/
def sigRomAt (i : Idx) : Byte := sigRom.getD i.toNat 0x00#8

/-- `emit hdr` (R11). -/
def Events.emitHdr : Events := { Events.none with hdr := true }

/-- `emit payload(b, l)` (R11). -/
def Events.emitPayload (b : Byte) (l : Bool) : Events :=
  { Events.none with plValid := true, plData := b, plLast := l }

/-- `emit ok` (R11). -/
def Events.emitOk : Events := { Events.none with ok := true }

/-- `emit err` (R11). -/
def Events.emitErr : Events := { Events.none with err := true }

/-- `emit done` (R11). -/
def Events.emitDone : Events := { Events.none with done := true }

/-- `emit perr` (R11). -/
def Events.emitPerr : Events := { Events.none with perr := true }

/-- `goto(p, i)`: `PHASE <- p; IDX <- i` (R9). -/
def Regs.goto (r : Regs) (p : Phase) (i : Idx) : Regs := { r with phase := p, idx := i }

/-- `IDX <- i + 1` with `i` the IDX before the step. -/
def Regs.nextByte (r : Regs) : Regs := { r with idx := r.idx + 1#3 }

/-- The three frame errors a rule can raise (R175). -/
inductive FrameError where
  | badSignature | truncated | checksumMismatch
  deriving DecidableEq, Repr

/-- The value of ERR that `raise` writes (R175, R180). -/
def FrameError.errCode : FrameError → ErrCode
  | .badSignature => .badSignature
  | .truncated => .truncated
  | .checksumMismatch => .checksumMismatch

/-- The registers after `raise E` (R180): EPHASE takes the phase before the step, PHASE becomes ERR, ERR takes the code, and
every other register keeps its value. -/
def Regs.raise (r : Regs) (e : FrameError) : Regs :=
  { r with ephase := r.phase, phase := .err, err := e.errCode }

/-- Every register at its reset value except SIGM and PHASE (R162): the only way out of ERR and DONE besides reset (R183), and
so the counterpart of a return from an error. -/
def Regs.started (sig : Bool) : Regs :=
  { Regs.reset with sigm := sig, phase := if sig then .sig else .len }

/-- A command ends: its registers and its event record, both complete at the end of the step (R10, R70). -/
def State.complete (s : State) (r : Regs) (e : Events) : Host.Outcome State Fault Refusal :=
  .next { s with regs := r, ev := e }

/-- Taking a frame error (R180): the registers `r` that the command itself has written, then `raise`, and the `err` event. -/
def State.frameError (s : State) (r : Regs) (e : FrameError) : Host.Outcome State Fault Refusal :=
  s.complete (r.raise e) Events.emitErr

/-- The protocol error (R184): "PERR <- 1, emit perr, nothing else changes". -/
def State.protocolError (s : State) : Host.Outcome State Fault Refusal :=
  s.complete { s.regs with perr := true } Events.emitPerr

/-- A reserved word, in any phase: the protocol error and nothing else (R86, R164; log entry 6). -/
def State.reservedWord (s : State) : Host.Outcome State Fault Refusal := s.protocolError

/-- A command with no effect on the registers and no event: `NOP` (R161), `BYTE` and `END` in ERR (R142, R163). -/
def State.noEffect (s : State) : Host.Outcome State Fault Refusal :=
  s.complete s.regs Events.none

/-- An edge with `rst_n = 1` and `cmd_valid = 0`: no step; the registers stay and the event record is zero (R44, R45). -/
def State.idleEdge (s : State) : Host.Outcome State Fault Refusal :=
  s.complete s.regs Events.none

/-- An edge with `rst_n = 0`: the reset state whatever the state was, and no event (R200). -/
def State.hardReset (s : State) : Host.Outcome State Fault Refusal :=
  s.complete Regs.reset Events.none

/-- What the pins ask for at the next edge (R44). -/
inductive EdgeAction where
  | reset
  | command (w : CmdWord)
  | idle
  deriving DecidableEq, Repr

/-- The priorities of R44: reset first, whatever `cmd_valid` is, then the command. -/
def PortSample.action (p : PortSample) : EdgeAction :=
  if !p.rstN then .reset else if p.cmdValid then .command p.cmd else .idle

/-- What the next edge does: the nearest sample decides, and with nothing presented `cmd_valid` is 0 (log entry 1). -/
def State.edgeAction (s : State) : EdgeAction :=
  match s.port with
  | [] => .idle
  | p :: _ => p.action

/-- The samples that remain after the edge. -/
def State.afterEdge (s : State) : State := { s with port := s.port.tail }

/-- The pins of an edge at which the host presents the word `w`. -/
def PortSample.ofCommand (w : CmdWord) : PortSample := ⟨true, true, w⟩

/-- The host presents `w` at the next edge, before what it presents otherwise. -/
def State.present (s : State) (w : CmdWord) : State :=
  { s with port := PortSample.ofCommand w :: s.port }

end Sys2Proof.Machine
end

