-- ==== Sys2Proof/Machine/ByteOp.lean ====
section
/-! DEFINITION. `BYTE b`, phase by phase (R135 to R142). -/

namespace Sys2Proof.Machine

/-- `BYTE b` in SIG (R136): compare with the signature byte at the same offset. -/
def byteInSig (b : Byte) (s : State) : Host.Outcome State Fault Refusal :=
  let r := s.regs
  if b = sigRomAt r.idx then
    if r.idx = 7#3 then s.complete (r.goto .len 0#3) Events.none
    else s.complete r.nextByte Events.none
  else s.frameError r .badSignature

/-- `BYTE b` in LEN (R137): shift into LEN; the fourth byte sets REM and starts a new checksum. -/
def byteInLen (b : Byte) (s : State) : Host.Outcome State Fault Refusal :=
  let r := s.regs
  let len' := shiftIn r.len b
  if r.idx = 3#3 then
    s.complete ({ r with len := len', rem := len', crcacc := crcInit }.goto .type 0#3) Events.none
  else s.complete { r with len := len' }.nextByte Events.none

/-- `BYTE b` in TYPE (R138): shift into TYPE and into the checksum; the fourth byte emits `hdr` and marks the payload boundary. -/
def byteInType (b : Byte) (s : State) : Host.Outcome State Fault Refusal :=
  let r := s.regs
  let r' := { r with type := shiftIn r.type b, crcacc := crcUpd r.crcacc b }
  if r.idx = 3#3 then
    s.complete (r'.goto (if r.rem = 0#32 then .crc else .data) 0#3) Events.emitHdr
  else s.complete r'.nextByte Events.none

/-- `BYTE b` in DATA (R139): a payload byte enters the checksum and is forwarded; the last one carries the last mark. -/
def byteInData (b : Byte) (s : State) : Host.Outcome State Fault Refusal :=
  let r := s.regs
  let r' := { r with crcacc := crcUpd r.crcacc b, rem := r.rem - 1#32 }
  if r.rem = 1#32 then s.complete (r'.goto .crc 0#3) (Events.emitPayload b true)
  else s.complete r' (Events.emitPayload b false)

/-- `BYTE b` in CRC (R140): shift into CRCRX; at the fourth byte compare with the computed checksum. -/
def byteInCrc (b : Byte) (s : State) : Host.Outcome State Fault Refusal :=
  let r := s.regs
  let rx' := shiftIn r.crcrx b
  if r.idx = 3#3 then
    if rx' = crcFinal r.crcacc then
      s.complete ({ r with crcrx := rx', nchunk := satInc32 r.nchunk }.goto .len 0#3) Events.emitOk
    else s.frameError { r with crcrx := rx' } .checksumMismatch
  else s.complete { r with crcrx := rx' }.nextByte Events.none

/-- `BYTE b` (R135): "the step is selected by PHASE alone". -/
def execByte (b : Byte) (s : State) : Host.Outcome State Fault Refusal :=
  match s.regs.phase with
  | .sig => byteInSig b s
  | .len => byteInLen b s
  | .type => byteInType b s
  | .data => byteInData b s
  | .crc => byteInCrc b s
  | .idle => s.protocolError
  | .done => s.protocolError
  | .err => s.noEffect

end Sys2Proof.Machine
end

