-- ==== Sys2Proof/Machine/Control.lean ====
section
/-! DEFINITION. The control commands `NOP`, `START` and `END` (R160 to R163). There is one privilege level: each is legal in every
phase and for every host (R160, R190). -/

namespace Sys2Proof.Machine

/-- `NOP` (R161): the state after equals the state before and the event record is all zero. The operand is ignored. -/
def execNop (_d : Byte) (s : State) : Host.Outcome State Fault Refusal := s.noEffect

/-- `START sig` (R162), in every phase: every register is re-initialised and nothing is emitted. An operand with `d[7:1]` not 0
belongs to a reserved word (R86), which the decoder never hands to this meaning; it would be executed as one (log entry 6). -/
def execStart (d : Byte) (s : State) : Host.Outcome State Fault Refusal :=
  if startSpareBitsZero d then s.complete (Regs.started (startSig d)) Events.none
  else s.reservedWord

/-- `END` (R163): the input has no more bytes. The operand is ignored. -/
def execEndStream (_d : Byte) (s : State) : Host.Outcome State Fault Refusal :=
  match s.regs.phase with
  | .len => if s.regs.idx = 0#3 then s.complete { s.regs with phase := .done } Events.emitDone else s.frameError s.regs .truncated
  | .type => s.frameError s.regs .truncated
  | .data => s.frameError s.regs .truncated
  | .crc => s.frameError s.regs .truncated
  | .sig => s.frameError s.regs .badSignature
  | .idle => s.protocolError
  | .done => s.protocolError
  | .err => s.noEffect

end Sys2Proof.Machine
end

