-- ==== Sys2Proof/Machine/Dispatch.lean ====
section
/-! DEFINITION. The meaning of each command. -/

namespace Sys2Proof.Machine

def exec (i : Instr) (s : State) : Host.Outcome State Fault Refusal :=
  match i with
  | .nop d => Sys2Proof.Machine.execNop d s
  | .start d => Sys2Proof.Machine.execStart d s
  | .byte b => Sys2Proof.Machine.execByte b s
  | .endStream d => Sys2Proof.Machine.execEndStream d s

end Sys2Proof.Machine
end

