-- ==== Sys2Proof/Machine/Command.lean ====
section
/-! DEFINITION. The execution of one accepted command word (R10, R87). -/

namespace Sys2Proof.Machine

/-- The command word `w` executed as R87 decodes it: a command has its meaning, a reserved word the protocol error. -/
def runWord (w : CmdWord) (s : State) : Host.Outcome State Fault Refusal :=
  match decode w with
  | .command i => exec i s
  | .reserved _ => s.reservedWord

end Sys2Proof.Machine
end

