-- ==== Sys2Proof/Machine/Step.lean ====
section
/-! DEFINITION. One rising edge of `clk` (R44): reset, one command, or nothing. -/

namespace Sys2Proof.Machine

/-- The step of the machine: the nearest sample of the port is taken and acted on (R44, R200; log entry 1). -/
def step (s : State) : Host.Outcome State Fault Refusal :=
  match s.edgeAction with
  | .reset => s.afterEdge.hardReset
  | .command w => runWord w s.afterEdge
  | .idle => s.afterEdge.idleEdge

/-- The host presents the word `w` at the next edge (R10, R44). The CFP fetches nothing (R72): this stands for the host's
choice of its next command (log entries 2 and 11). -/
def State.withFetchWord (s : State) (nbits w : Nat) : State :=
  s.present (BitVec.ofNat 11 (tableBits nbits w))

end Sys2Proof.Machine
end

