-- ==== Sys2Proof/Machine/Flags.lean ====
section
/-! DEFINITION. Every flag the CFP computes: the register codes, the type-code predicates (R117 to R122), the fields of STATUS
(R36) and TFLAGS (R39), and the level outputs (R43). -/

namespace Sys2Proof.Machine

/-- The 3-bit code of a phase (R21). -/
def Phase.code : Phase → BitVec 3
  | .idle => 0#3
  | .sig => 1#3
  | .len => 2#3
  | .type => 3#3
  | .data => 4#3
  | .crc => 5#3
  | .done => 6#3
  | .err => 7#3

/-- The active phases are SIG, LEN, TYPE, DATA and CRC (R21). -/
def Phase.active : Phase → Bool
  | .sig | .len | .type | .data | .crc => true
  | .idle | .done | .err => false

/-- The 2-bit code of a frame error (R31, R175). -/
def ErrCode.code : ErrCode → BitVec 2
  | .noError => 0#2
  | .badSignature => 1#2
  | .truncated => 2#2
  | .checksumMismatch => 3#2

/-- `is_critical(t) = (t[29] = 0)` (R117). -/
def isCritical (t : Word) : Bool := !t.getLsbD 29

/-- `is_public(t) = (t[21] = 0)` (R118). -/
def isPublic (t : Word) : Bool := !t.getLsbD 21

/-- `is_reserved_bit_valid(t) = (t[13] = 0)` (R119). -/
def isReservedBitValid (t : Word) : Bool := !t.getLsbD 13

/-- `is_safe_to_copy(t) = (t[5] = 1)` (R120). -/
def isSafeToCopy (t : Word) : Bool := t.getLsbD 5

/-- `alpha(b)`: an ASCII letter (R121). -/
def alpha (b : Byte) : Bool :=
  (0x41#8 ≤ b && b ≤ 0x5A#8) || (0x61#8 ≤ b && b ≤ 0x7A#8)

/-- `ALPHA(t)`: the four bytes are letters (R121). -/
def alphaAll (t : Word) : Bool :=
  alpha (byte0 t) && alpha (byte1 t) && alpha (byte2 t) && alpha (byte3 t)

/-- `is_valid(t) = ALPHA(t) and (t[13] = 0)` (R122; 90_conflicts.md C3, log entry 9). -/
def isValid (t : Word) : Bool := alphaAll t && !t.getLsbD 13

/-- A field of a status register: `v` with its bit 0 at bit `lo`, the other bits 0. -/
def fieldAt (lo : Nat) {n : Nat} (v : BitVec n) : Word := v.setWidth 32 <<< lo

/-- TFLAGS, `SR[7]`: CRITICAL 0, PUBLIC 1, RSV_OK 2, SAFE 3, VALID 4, ALPHA 5; bits 31:6 read 0 (R39). -/
def tflags (t : Word) : Word :=
  fieldAt 0 (BitVec.ofBool (isCritical t)) ||| fieldAt 1 (BitVec.ofBool (isPublic t))
    ||| fieldAt 2 (BitVec.ofBool (isReservedBitValid t)) ||| fieldAt 3 (BitVec.ofBool (isSafeToCopy t))
    ||| fieldAt 4 (BitVec.ofBool (isValid t)) ||| fieldAt 5 (BitVec.ofBool (alphaAll t))

/-- STATUS, `SR[0]`: PHASE 2:0, IDX 5:3, SIGM 6, PERR 7, ERR 9:8, EPHASE 12:10; bits 31:13 read 0 (R36). -/
def Regs.status (r : Regs) : Word :=
  fieldAt 0 r.phase.code ||| fieldAt 3 r.idx ||| fieldAt 6 (BitVec.ofBool r.sigm) ||| fieldAt 7 (BitVec.ofBool r.perr)
    ||| fieldAt 8 r.err.code ||| fieldAt 10 r.ephase.code

/-- Level output `busy` (R43). -/
def Regs.busyPin (r : Regs) : Bool := r.phase.active

/-- Level output `done` (R43). -/
def Regs.donePin (r : Regs) : Bool := r.phase == .done

/-- Level output `err` (R43). -/
def Regs.errPin (r : Regs) : Bool := r.phase == .err

/-- Level output `err_code[1:0]` (R43). -/
def Regs.errCodePin (r : Regs) : BitVec 2 := r.err.code

/-- Level output `perr` (R43). -/
def Regs.perrPin (r : Regs) : Bool := r.perr

end Sys2Proof.Machine
end

