-- ==== Sys2Proof/Machine/Pins.lean ====
section
/-! DEFINITION. What the host sees: the status register space `SR[0..15]` (R35 to R42) and the output pins (R43 to R45). All of
it is a pure function of the state; reading changes nothing (R35, R67). -/

namespace Sys2Proof.Machine

/-- `SR[n]` (R36 to R40). -/
def Regs.sr (r : Regs) (n : BitVec 4) : Word :=
  match n.toNat with
  | 0 => r.status
  | 1 => r.len
  | 2 => r.type
  | 3 => r.rem
  | 4 => crcFinal r.crcacc
  | 5 => r.crcrx
  | 6 => r.nchunk
  | 7 => tflags r.type
  | _ => 0x00000000#32

/-- The read port: `rd_data` equals `SR[rd_sel]` of the current state, combinationally (R42; log entry 10). -/
def State.rdData (s : State) (rdSel : BitVec 4) : Word := s.regs.sr rdSel

/-- All output pins of the CFP (R42 to R45). -/
structure OutputPins where
  cmdReady : Bool
  rdData : Word
  busy : Bool
  done : Bool
  err : Bool
  errCode : BitVec 2
  perr : Bool
  evHdr : Bool
  plValid : Bool
  plData : Byte
  plLast : Bool
  evOk : Bool
  evErr : Bool
  evDone : Bool
  evPerr : Bool
  deriving DecidableEq, Repr

/-- The output pins in a state, with `rd_sel` as the host drives it. `cmd_ready` is constant 1 (R44). -/
def State.pins (s : State) (rdSel : BitVec 4) : OutputPins where
  cmdReady := true
  rdData := s.rdData rdSel
  busy := s.regs.busyPin
  done := s.regs.donePin
  err := s.regs.errPin
  errCode := s.regs.errCodePin
  perr := s.regs.perrPin
  evHdr := s.ev.hdr
  plValid := s.ev.plValid
  plData := s.ev.plData
  plLast := s.ev.plLast
  evOk := s.ev.ok
  evErr := s.ev.err
  evDone := s.ev.done
  evPerr := s.ev.perr

end Sys2Proof.Machine
end

