-- ==== Sys2Proof/Safety.lean ====
section
/-! DEFINITION. The terms in which claims about the CFP are stated: the invariants of R34, the well-formed event record (R11),
runs over several clock edges with the events they emit, and the stream formats (R89 to R92, R96, R97). -/

namespace Sys2Proof.Machine

/-- The invariants (a) to (h) of R34. -/
structure Regs.Inv (r : Regs) : Prop where
  /-- (a) -/
  idleDone : r.phase = .idle ∨ r.phase = .done → r.idx = 0#3
  /-- (b) -/
  inData : r.phase = .data → r.idx = 0#3 ∧ 1#32 ≤ r.rem ∧ r.rem ≤ r.len
  /-- (c) -/
  fieldIdx : r.phase = .len ∨ r.phase = .type ∨ r.phase = .crc → r.idx ≤ 3#3
  /-- (d) -/
  idleIsReset : r.phase = .idle → r = { Regs.reset with perr := r.perr }
  /-- (e), first half -/
  errIff : r.err ≠ .noError ↔ r.phase = .err
  /-- (e), second half -/
  ephaseIff : r.ephase ≠ .idle ↔ r.phase = .err
  /-- (f) -/
  inCrc : r.phase = .crc → r.rem = 0#32
  /-- (g) -/
  inType : r.phase = .type → r.rem = r.len ∧ (r.idx = 0#3 → r.crcacc = 0xFFFFFFFF#32)
  /-- (h), BadSignature -/
  errBadSignature : r.phase = .err → r.err = .badSignature → r.ephase = .sig
  /-- (h), Truncated -/
  errTruncated : r.phase = .err → r.err = .truncated →
    r.ephase = .len ∨ r.ephase = .type ∨ r.ephase = .data ∨ r.ephase = .crc
  /-- (h), ChecksumMismatch -/
  errChecksumMismatch : r.phase = .err → r.err = .checksumMismatch →
    r.ephase = .crc ∧ r.idx = 3#3 ∧ r.crcrx ≠ r.crcacc ^^^ 0xFFFFFFFF#32

/-- How many of the six event bits are set (R11). -/
def Events.count (e : Events) : Nat :=
  e.hdr.toNat + e.plValid.toNat + e.ok.toNat + e.err.toNat + e.done.toNat + e.perr.toNat

/-- "At most one of `hdr`, `pl_valid`, `ok`, `err`, `done`, `perr` is set in one step", and "`pl_data` and `pl_last` are 0 when
`pl_valid` is 0" (R11). -/
structure Events.Wf (e : Events) : Prop where
  atMostOne : e.count ≤ 1
  quietPayload : e.plValid = false → e.plData = 0x00#8 ∧ e.plLast = false

/-- The next state of an outcome, where there is one. -/
def nextOf : Host.Outcome State Fault Refusal → Option State
  | .next t => some t
  | .fault _ => none
  | .refused _ => none

/-- `n` clock edges from `s`: the last state, and the event record of each edge in order (R70). -/
def runEdges : Nat → State → Option (State × List Events)
  | 0, s => some (s, [])
  | n + 1, s =>
    match nextOf (step s) with
    | none => none
    | some t =>
      match runEdges n t with
      | none => none
      | some (u, es) => some (u, t.ev :: es)

/-- The host presents the words `ws`, one an edge, before what it presents otherwise. -/
def State.presentAll (s : State) (ws : List CmdWord) : State :=
  { s with port := ws.map PortSample.ofCommand ++ s.port }

/-- The command words `ws` executed one after another from `s`. -/
def runWords (ws : List CmdWord) (s : State) : Option (State × List Events) :=
  runEdges ws.length (s.presentAll ws)

/-- One `BYTE` command for each byte of the stream, in order (R61, `BYTES` of R96). -/
def byteWords (m : List Byte) : List CmdWord := m.map fun b => encode (.byte b)

/-- `START 1` or `START 0` as a command word (R83). -/
def startWord (sig : Bool) : CmdWord := if sig then 0x101#11 else 0x100#11

/-- `END` in its canonical spelling (R85). -/
def endWord : CmdWord := 0x300#11

/-- A complete parse (R97): `START s`, one `BYTE` per byte of `buf`, `END`. -/
def parseWords (sig : Bool) (buf : List Byte) : List CmdWord :=
  startWord sig :: (byteWords buf ++ [endWord])

/-- What a frame carries: its type code and its payload (R91). -/
structure Frame where
  type : Word
  payload : List Byte
  deriving DecidableEq, Repr

/-- `type ‖ payload` in stream order, what the checksum covers (R102). -/
def Frame.body (f : Frame) : List Byte := unfold4 f.type ++ f.payload

/-- The value of the length field: it "counts the payload bytes only" (R91). -/
def Frame.length (f : Frame) : Word := BitVec.ofNat 32 f.payload.length

/-- The payload length fits the length field (R7, R68). -/
def Frame.fits (f : Frame) : Prop := f.payload.length < 2 ^ 32

/-- The bytes of the frame with `stored` in its checksum field (R91). -/
def Frame.bytesWith (f : Frame) (stored : Word) : List Byte :=
  unfold4 f.length ++ f.body ++ unfold4 stored

/-- The bytes of the frame with the right checksum (R91, `FRAME` of R96). -/
def Frame.bytes (f : Frame) : List Byte := f.bytesWith (crc32 f.body)

/-- The payload symbols of a frame: `pl_last` is 1 exactly on the last (R45, R139). -/
def payloadEvents : List Byte → List Events
  | [] => []
  | b :: bs => Events.emitPayload b bs.isEmpty :: payloadEvents bs

/-- The event records of the `12 + L` steps of a frame (R143): `hdr` at the 8th, the payload symbols, and `last` at the end. -/
def Frame.events (f : Frame) (last : Events) : List Events :=
  List.replicate 7 Events.none ++ [Events.emitHdr] ++ payloadEvents f.payload
    ++ List.replicate 3 Events.none ++ [last]

/-- The signature stage of a stream: the eight bytes with `START 1`, nothing with `START 0` (R89, R90). -/
def sigBytes (sig : Bool) : List Byte := if sig then sigRom else []

/-- The signature followed by whole frames, each with its right checksum (R89). -/
def streamBytes (sig : Bool) (fs : List Frame) : List Byte :=
  sigBytes sig ++ fs.flatMap Frame.bytes

/-- The events of `START`, the signature stage and whole validated frames. -/
def streamEvents (sig : Bool) (fs : List Frame) : List Events :=
  Events.none :: ((sigBytes sig).map (fun _ => Events.none) ++ fs.flatMap (fun f => f.events Events.emitOk))

/-- NCHUNK after `k` validated chunks: `min(k, 2^32 - 1)` (R30, R147). -/
def nchunkOf (k : Nat) : Word := BitVec.ofNat 32 (min k (2 ^ 32 - 1))

/-- An edge that is not part of the stream: `cmd_valid = 0`, or a `NOP` (R61, R161). -/
def PortSample.quiet (p : PortSample) : Bool :=
  p.rstN && (!p.cmdValid || opField p.cmd == 0#3)

/-- The host presents the samples `ps` at the coming edges, before what it presents otherwise. -/
def State.presentSamples (s : State) (ps : List PortSample) : State := { s with port := ps ++ s.port }

/-- The `BYTE` column of the phase transition table (R167). -/
def tableByte (r : Regs) (b : Byte) : Phase :=
  match r.phase with
  | .idle => .idle
  | .sig => if b = sigRomAt r.idx then (if r.idx < 7#3 then .sig else .len) else .err
  | .len => if r.idx < 3#3 then .len else .type
  | .type => if r.idx < 3#3 then .type else if r.rem = 0#32 then .crc else .data
  | .data => if 1#32 < r.rem then .data else .crc
  | .crc => if r.idx < 3#3 then .crc else if shiftIn r.crcrx b = crcFinal r.crcacc then .len else .err
  | .done => .done
  | .err => .err

/-- The `END` column of the phase transition table (R167). -/
def tableEnd (r : Regs) : Phase :=
  match r.phase with
  | .idle => .idle
  | .sig => .err
  | .len => if r.idx = 0#3 then .done else .err
  | .type => .err
  | .data => .err
  | .crc => .err
  | .done => .done
  | .err => .err

/-- The phase transition table (R167): the phase after the command word `w`. -/
def tablePhase (r : Regs) (w : CmdWord) : Phase :=
  match decode w with
  | .command (.nop _) => r.phase
  | .command (.start d) => if startSig d then .sig else .len
  | .command (.byte b) => tableByte r b
  | .command (.endStream _) => tableEnd r
  | .reserved _ => r.phase

end Sys2Proof.Machine
end

