-- ==== Sys2Proof/Certificates/Slice0/Obligations.lean ====
section
/-! DEFINITION. The statements about the CFP, from the numbered rules of spec/. -/

open Sys2Proof Sys2Proof.Machine

/-! ### Encoding -/

/-- Words written out bit by bit from R82 to R86 decode to the command they stand for (vectors W1 to W12). -/
def Obligations.WrittenWordsDecode : Prop :=
  decode 0b000_00000000#11 = .command (.nop 0x00) ∧
  decode 0b000_11111111#11 = .command (.nop 0xFF) ∧
  decode 0b001_00000000#11 = .command (.start 0x00) ∧
  decode 0b001_00000001#11 = .command (.start 0x01) ∧
  decode 0b010_00000000#11 = .command (.byte 0x00) ∧
  decode 0b010_11111111#11 = .command (.byte 0xFF) ∧
  decode 0b011_00000000#11 = .command (.endStream 0x00) ∧
  decode 0b011_10100101#11 = .command (.endStream 0xA5) ∧
  decode 0b001_00000010#11 = .reserved (.startOperand 0x02) ∧
  decode 0b001_11111111#11 = .reserved (.startOperand 0xFF) ∧
  decode 0b100_00000000#11 = .reserved (.opcode 4) ∧
  decode 0b111_11111111#11 = .reserved (.opcode 7)

/-- R87: the decoder is the rule's cascade on `op = cmd[10:8]` and `d = cmd[7:0]`, and of the 2048 words 256 are `NOP`, 2 are
`START`, 256 are `BYTE`, 256 are `END` and 1278 are reserved. -/
def Obligations.DecodeFollowsOpcodeMap : Prop :=
  (∀ (op : BitVec 3) (d : Byte),
    (op = 0#3 → decode (op ++ d) = .command (.nop d)) ∧
    (op = 1#3 → d = 0x00#8 ∨ d = 0x01#8 → decode (op ++ d) = .command (.start d)) ∧
    (op = 1#3 → d ≠ 0x00#8 → d ≠ 0x01#8 → ∃ why, decode (op ++ d) = .reserved why) ∧
    (op = 2#3 → decode (op ++ d) = .command (.byte d)) ∧
    (op = 3#3 → decode (op ++ d) = .command (.endStream d)) ∧
    (4#3 ≤ op → ∃ why, decode (op ++ d) = .reserved why)) ∧
  ([("NOP", 256), ("START", 2), ("BYTE", 256), ("END", 256)].all fun row =>
    ((List.range 2048).filter fun n =>
      (decode (BitVec.ofNat 11 n)).instr?.map Instr.mnemonic == some row.1).length == row.2) = true ∧
  ((List.range 2048).filter fun n => (decode (BitVec.ofNat 11 n)).instr?.isNone).length = 1278

/-- Decode and encode agree in both directions: every well-formed command is read back whole from its word, and a word that
decodes to a command is that command's word and the command is well formed. -/
def Obligations.DecodeEncodeAgree : Prop :=
  (∀ i : Instr, i.wellFormed = true → decode (encode i) = .command i) ∧
  (∀ (w : CmdWord) (i : Instr), decode w = .command i → i.wellFormed = true ∧ encode i = w)

/-- The decoder and the opcode table's match and mask agree: a command's word is covered by its own row and by no other, and a
reserved word by none (R82 to R86). -/
def Obligations.OpcodeTableMatchesDecoder : Prop :=
  ∀ w : CmdWord,
    (∀ i, decode w = .command i →
      (opcodeTable.filter fun row => row.covers w).map OpcodeRow.mnemonic = [i.mnemonic]) ∧
    (∀ why, decode w = .reserved why → (opcodeTable.filter fun row => row.covers w) = [])

/-! ### The clock edge -/

/-- First clause: an edge at which the host presents a command runs exactly the command it decodes to (R10, R44, R87); that the
presented command is the nearest sample of `port`, and is taken away, is the model's choice (log entry 1). Second clause, the
model's choice in whole (log entries 1, 2 and 11): `withFetchWord`, with `nbits` at least 11, presents the low eleven bits of its
number at the next edge, and that edge runs the command. -/
def Obligations.StepRunsDecodedCommand : Prop :=
  (∀ (s : State) (w : CmdWord) (rest : List PortSample) (i : Instr),
    s.port = PortSample.ofCommand w :: rest → decode w = .command i →
    step s = exec i { s with port := rest }) ∧
  (∀ (s : State) (i : Instr) (nbits : Nat), i.wellFormed = true → 11 ≤ nbits →
    step (s.withFetchWord nbits (encode i).toNat) = exec i s)

/-- R164 with R86's condition: a reserved word, in any phase, sets PERR, emits `perr` and changes nothing else. -/
def Obligations.ReservedWordIsProtocolError : Prop :=
  ∀ (s : State) (w : CmdWord) (rest : List PortSample),
    s.port = PortSample.ofCommand w :: rest →
    w.getLsbD 10 = true ∨ (w.extractLsb' 8 3 = 1#3 ∧ w.extractLsb' 1 7 ≠ 0#7) →
    step s = .next { regs := { s.regs with perr := true }, ev := { Events.none with perr := true }, port := rest }

/-- R200: at an edge with `rst_n = 0` the state becomes the reset state, whatever it was and whatever is on the command port,
with no event. Second clause, the model's choice (log entry 1, DESIGN CHOICE): an empty `port` is an edge with `rst_n = 1` and
`cmd_valid = 0`, so no register changes and the event record is zero. -/
def Obligations.ResetEdgeGivesResetState : Prop :=
  (∀ (s : State) (valid : Bool) (w : CmdWord) (rest : List PortSample),
    s.port = ⟨false, valid, w⟩ :: rest →
    step s = .next
      { regs := { phase := .idle, idx := 0#3, sigm := false, len := 0#32, type := 0#32, rem := 0#32, crcacc := 0xFFFFFFFF#32,
                  crcrx := 0#32, nchunk := 0#32, err := .noError, ephase := .idle, perr := false }
        ev := Events.none, port := rest }) ∧
  (∀ s : State, s.port = [] → step s = .next { s with ev := Events.none })

/-- R44: with `rst_n = 1` and `cmd_valid = 0` no step is taken, whatever the command pins hold; the event record is zero (R45). -/
def Obligations.IdleEdgeKeepsRegisters : Prop :=
  ∀ (s : State) (w : CmdWord) (rest : List PortSample),
    s.port = ⟨true, false, w⟩ :: rest →
    step s = .next { regs := s.regs, ev := Events.none, port := rest }

/-- R201: what the host reads in the reset state. -/
def Obligations.ResetStateReads : Prop :=
  (∀ n : BitVec 4, n ≠ 7#4 → State.reset.rdData n = 0x00000000#32) ∧
  State.reset.rdData 7#4 = 0x00000007#32 ∧
  ∀ n : BitVec 4,
    State.reset.pins n =
      { cmdReady := true, rdData := State.reset.rdData n, busy := false, done := false, err := false, errCode := 0#2,
        perr := false, evHdr := false, plValid := false, plData := 0x00#8, plLast := false, evOk := false, evErr := false,
        evDone := false, evPerr := false }

/-- R186, R10: every command from every state has a next state, and so has every edge. That a command leaves the later samples of
`port` and an edge takes one away is the model's choice (log entry 1). -/
def Obligations.EveryEdgeHasNextState : Prop :=
  (∀ (i : Instr) (s : State), ∃ t, exec i s = .next t ∧ t.port = s.port) ∧
  (∀ s : State, ∃ t, step s = .next t ∧ t.port = s.port.tail)

/-! ### The control commands -/

/-- R161: `NOP` leaves every register, in every phase, emits nothing, and is indistinguishable from an edge with `cmd_valid = 0`. -/
def Obligations.NopHasNoEffect : Prop :=
  (∀ (d : Byte) (s : State), exec (.nop d) s = .next { s with ev := Events.none }) ∧
  (∀ (s : State) (d : Byte) (w : CmdWord) (rest : List PortSample),
    step { s with port := PortSample.ofCommand (encode (.nop d)) :: rest } =
    step { s with port := ⟨true, false, w⟩ :: rest })

/-- R162: `START` in every phase gives every register its reset value except SIGM and PHASE, with no event. -/
def Obligations.StartReinitialises : Prop :=
  (∀ (s : State) (sig : Bool),
    exec (.start (if sig then 0x01#8 else 0x00#8)) s = .next
      { regs := { phase := if sig then .sig else .len, idx := 0#3, sigm := sig, len := 0#32, type := 0#32, rem := 0#32,
                  crcacc := 0xFFFFFFFF#32, crcrx := 0#32, nchunk := 0#32, err := .noError, ephase := .idle, perr := false }
        ev := Events.none, port := s.port }) ∧
  (∀ t, exec (.start 0x01#8) State.reset = .next t → t.rdData 0#4 = 0x00000041#32) ∧
  (∀ t, exec (.start 0x00#8) State.reset = .next t → t.rdData 0#4 = 0x00000002#32)

/-- The forms of `START` that no command word stands for, since `d[7:1]` is not 0 (R83, R86): the model executes such a term as
the reserved word it would be (the model's choice, log entry 6). -/
def Obligations.StartWithSpareBitsIsProtocolError : Prop :=
  ∀ (s : State) (d : Byte), d.extractLsb' 1 7 ≠ 0#7 →
    exec (.start d) s =
      .next { regs := { s.regs with perr := true }, ev := { Events.none with perr := true }, port := s.port }

/-- R163: `END`, case by case on the phase; each case gives the whole next state. -/
def Obligations.EndStreamByPhase : Prop :=
  ∀ (d : Byte) (s : State),
    (s.regs.phase = .len → s.regs.idx = 0#3 →
      exec (.endStream d) s =
        .next { s with regs := { s.regs with phase := .done }, ev := { Events.none with done := true } }) ∧
    ((s.regs.phase = .len ∧ s.regs.idx ≠ 0#3) ∨ s.regs.phase = .type ∨ s.regs.phase = .data ∨ s.regs.phase = .crc →
      exec (.endStream d) s =
        .next { s with regs := { s.regs with phase := .err, err := .truncated, ephase := s.regs.phase }
                       ev := { Events.none with err := true } }) ∧
    (s.regs.phase = .sig →
      exec (.endStream d) s =
        .next { s with regs := { s.regs with phase := .err, err := .badSignature, ephase := .sig }
                       ev := { Events.none with err := true } }) ∧
    (s.regs.phase = .idle ∨ s.regs.phase = .done →
      exec (.endStream d) s =
        .next { s with regs := { s.regs with perr := true }, ev := { Events.none with perr := true } }) ∧
    (s.regs.phase = .err → exec (.endStream d) s = .next { s with ev := Events.none })

/-! ### BYTE, phase by phase -/

/-- R136: `BYTE` in SIG compares with the signature byte at offset IDX. -/
def Obligations.ByteInSig : Prop :=
  ∀ (b : Byte) (s : State) (i : Nat), s.regs.phase = .sig → i < 8 → s.regs.idx = BitVec.ofNat 3 i →
    let expected : Byte := [0x89#8, 0x50#8, 0x4E#8, 0x47#8, 0x0D#8, 0x0A#8, 0x1A#8, 0x0A#8].getD i 0x00#8
    (b = expected → i < 7 →
      exec (.byte b) s =
        .next { s with regs := { s.regs with idx := BitVec.ofNat 3 (i + 1) }, ev := Events.none }) ∧
    (b = expected → i = 7 →
      exec (.byte b) s =
        .next { s with regs := { s.regs with phase := .len, idx := 0#3 }, ev := Events.none }) ∧
    (b ≠ expected →
      exec (.byte b) s =
        .next { s with regs := { s.regs with phase := .err, err := .badSignature, ephase := .sig }
                       ev := { Events.none with err := true } })

/-- R137: `BYTE` in LEN shifts the byte into LEN; the fourth byte sets REM and CRCACC and moves to TYPE. -/
def Obligations.ByteInLen : Prop :=
  ∀ (b : Byte) (s : State), s.regs.phase = .len →
    (s.regs.idx < 3#3 →
      exec (.byte b) s =
        .next { s with regs := { s.regs with len := (s.regs.len <<< 8) ||| b.setWidth 32, idx := s.regs.idx + 1#3 }
                       ev := Events.none }) ∧
    (s.regs.idx = 3#3 →
      exec (.byte b) s =
        .next { s with regs := { s.regs with len := (s.regs.len <<< 8) ||| b.setWidth 32
                                             rem := (s.regs.len <<< 8) ||| b.setWidth 32
                                             crcacc := 0xFFFFFFFF#32, phase := .type, idx := 0#3 }
                       ev := Events.none })

/-- R138: `BYTE` in TYPE shifts the byte into TYPE and into the checksum; the fourth byte emits `hdr` and goes to CRC when REM
is 0 and to DATA otherwise. -/
def Obligations.ByteInType : Prop :=
  ∀ (b : Byte) (s : State), s.regs.phase = .type →
    (s.regs.idx < 3#3 →
      exec (.byte b) s =
        .next { s with regs := { s.regs with type := (s.regs.type <<< 8) ||| b.setWidth 32
                                             crcacc := crcUpd s.regs.crcacc b, idx := s.regs.idx + 1#3 }
                       ev := Events.none }) ∧
    (s.regs.idx = 3#3 →
      exec (.byte b) s =
        .next { s with regs := { s.regs with type := (s.regs.type <<< 8) ||| b.setWidth 32
                                             crcacc := crcUpd s.regs.crcacc b
                                             phase := if s.regs.rem = 0#32 then .crc else .data, idx := 0#3 }
                       ev := { Events.none with hdr := true } })

/-- R139: `BYTE` in DATA takes a payload byte into the checksum and forwards it, the last one with `pl_last`. -/
def Obligations.ByteInData : Prop :=
  ∀ (b : Byte) (s : State), s.regs.phase = .data → s.regs.idx = 0#3 →
    (1#32 < s.regs.rem →
      exec (.byte b) s =
        .next { s with regs := { s.regs with crcacc := crcUpd s.regs.crcacc b, rem := s.regs.rem - 1#32 }
                       ev := { Events.none with plValid := true, plData := b, plLast := false } }) ∧
    (s.regs.rem = 1#32 →
      exec (.byte b) s =
        .next { s with regs := { s.regs with crcacc := crcUpd s.regs.crcacc b, rem := 0#32, phase := .crc, idx := 0#3 }
                       ev := { Events.none with plValid := true, plData := b, plLast := true } })

/-- R140: `BYTE` in CRC shifts the byte into CRCRX; the fourth byte compares the stored with the computed checksum. -/
def Obligations.ByteInCrc : Prop :=
  ∀ (b : Byte) (s : State), s.regs.phase = .crc →
    (s.regs.idx < 3#3 →
      exec (.byte b) s =
        .next { s with regs := { s.regs with crcrx := (s.regs.crcrx <<< 8) ||| b.setWidth 32, idx := s.regs.idx + 1#3 }
                       ev := Events.none }) ∧
    (s.regs.idx = 3#3 → (s.regs.crcrx <<< 8) ||| b.setWidth 32 = s.regs.crcacc ^^^ 0xFFFFFFFF#32 →
      exec (.byte b) s =
        .next { s with regs := { s.regs with crcrx := (s.regs.crcrx <<< 8) ||| b.setWidth 32
                                             nchunk := if s.regs.nchunk = 0xFFFFFFFF#32 then 0xFFFFFFFF#32
                                                       else s.regs.nchunk + 1#32
                                             phase := .len, idx := 0#3 }
                       ev := { Events.none with ok := true } }) ∧
    (s.regs.idx = 3#3 → (s.regs.crcrx <<< 8) ||| b.setWidth 32 ≠ s.regs.crcacc ^^^ 0xFFFFFFFF#32 →
      exec (.byte b) s =
        .next { s with regs := { s.regs with crcrx := (s.regs.crcrx <<< 8) ||| b.setWidth 32
                                             phase := .err, err := .checksumMismatch, ephase := .crc }
                       ev := { Events.none with err := true } })

/-- R141 and R142: `BYTE` outside a parse: a protocol error in IDLE and DONE, nothing in ERR. -/
def Obligations.ByteOutsideParse : Prop :=
  ∀ (b : Byte) (s : State),
    (s.regs.phase = .idle ∨ s.regs.phase = .done →
      exec (.byte b) s =
        .next { s with regs := { s.regs with perr := true }, ev := { Events.none with perr := true } }) ∧
    (s.regs.phase = .err → exec (.byte b) s = .next { s with ev := Events.none })

/-! ### Rules of the whole machine -/

/-- R167: the phase after any command word is the cell of the phase transition table, and a hardware reset goes to IDLE from
anywhere. -/
def Obligations.PhaseFollowsTransitionTable : Prop :=
  (∀ (s t : State) (w : CmdWord) (rest : List PortSample), s.regs.Inv →
    s.port = PortSample.ofCommand w :: rest → step s = .next t → t.regs.phase = tablePhase s.regs w) ∧
  (∀ (s t : State) (valid : Bool) (w : CmdWord) (rest : List PortSample),
    s.port = ⟨false, valid, w⟩ :: rest → step s = .next t → t.regs.phase = .idle)

/-- R11: whatever the state and the pins, an edge leaves an event record with at most one event. -/
def Obligations.AtMostOneEventPerEdge : Prop :=
  ∀ s t : State, step s = .next t → t.ev.Wf

/-- R180: an edge that emits `err` has raised a frame error from an active phase; EPHASE holds that phase, PHASE is ERR, ERR
holds a code, and every other register keeps its value, but for CRCRX at a checksum mismatch. -/
def Obligations.RaiseRecordsPhaseAndCode : Prop :=
  ∀ s t : State, step s = .next t → t.ev.err = true →
    s.regs.phase.active = true ∧ t.regs.ephase = s.regs.phase ∧ t.regs.phase = .err ∧ t.regs.err ≠ .noError ∧
    t.regs.idx = s.regs.idx ∧ t.regs.sigm = s.regs.sigm ∧ t.regs.len = s.regs.len ∧ t.regs.type = s.regs.type ∧
    t.regs.rem = s.regs.rem ∧ t.regs.crcacc = s.regs.crcacc ∧ t.regs.nchunk = s.regs.nchunk ∧
    t.regs.perr = s.regs.perr ∧ (t.regs.err ≠ .checksumMismatch → t.regs.crcrx = s.regs.crcrx)

/-- R175: the codes of the frame errors, and which command raises which, in which phase. -/
def Obligations.FrameErrorCauses : Prop :=
  [ErrCode.noError, .badSignature, .truncated, .checksumMismatch].map ErrCode.code = [0#2, 1#2, 2#2, 3#2] ∧
  ∀ (i : Instr) (s t : State), exec i s = .next t →
    ((t.ev.err = true ∧ t.regs.err = .badSignature) ↔
      s.regs.phase = .sig ∧ ((∃ b, i = .byte b ∧ b ≠ sigRomAt s.regs.idx) ∨ ∃ d, i = .endStream d)) ∧
    ((t.ev.err = true ∧ t.regs.err = .truncated) ↔
      (∃ d, i = .endStream d) ∧
        ((s.regs.phase = .len ∧ s.regs.idx ≠ 0#3) ∨ s.regs.phase = .type ∨ s.regs.phase = .data ∨ s.regs.phase = .crc)) ∧
    ((t.ev.err = true ∧ t.regs.err = .checksumMismatch) ↔
      ∃ b, i = .byte b ∧ s.regs.phase = .crc ∧ s.regs.idx = 3#3 ∧
        (s.regs.crcrx <<< 8) ||| b.setWidth 32 ≠ s.regs.crcacc ^^^ 0xFFFFFFFF#32)

/-- R183: in ERR an edge that is neither a reset nor a `START` keeps every register but PERR, which only a reserved word sets, and
emits nothing but that protocol error. -/
def Obligations.ErrLeftOnlyByStartOrReset : Prop :=
  ∀ (s t : State) (p : PortSample) (rest : List PortSample),
    s.port = p :: rest → s.regs.phase = .err → step s = .next t →
    p.rstN = false ∨ (p.cmdValid = true ∧ ∃ d, decode p.cmd = .command (.start d)) ∨
    (t.regs = s.regs ∧ t.ev = Events.none) ∨
    ((∃ why, decode p.cmd = .reserved why) ∧ t.regs = { s.regs with perr := true } ∧ t.ev = Events.emitPerr)

/-- R166: `END` in an active phase ends in DONE or ERR, and DONE is left only by `START` or reset: any other edge keeps every
register but PERR and emits at most a protocol error. -/
def Obligations.EndIsFinal : Prop :=
  (∀ (d : Byte) (s t : State), s.regs.phase.active = true → exec (.endStream d) s = .next t →
    t.regs.phase = .done ∨ t.regs.phase = .err) ∧
  (∀ (s t : State) (p : PortSample) (rest : List PortSample),
    s.port = p :: rest → s.regs.phase = .done → step s = .next t →
    p.rstN = false ∨ (p.cmdValid = true ∧ ∃ d, decode p.cmd = .command (.start d)) ∨
    (t.regs = s.regs ∧ t.ev = Events.none) ∨ (t.regs = { s.regs with perr := true } ∧ t.ev = Events.emitPerr))

/-- R184: an edge emits `perr` exactly when the command is a reserved word, or `BYTE` or `END` in IDLE or DONE; then PERR is set
and no other register changes; and PERR stays set until a `START` (or a reset: ResetEdgeGivesResetState). -/
def Obligations.ProtocolErrorCauses : Prop :=
  ∀ (s t : State) (w : CmdWord) (rest : List PortSample),
    s.port = PortSample.ofCommand w :: rest → step s = .next t →
    (t.ev.perr = true ↔
      (∃ why, decode w = .reserved why) ∨
      ((s.regs.phase = .idle ∨ s.regs.phase = .done) ∧
        ((∃ b, decode w = .command (.byte b)) ∨ ∃ d, decode w = .command (.endStream d)))) ∧
    (t.ev.perr = true → t.regs = { s.regs with perr := true } ∧ t.ev = Events.emitPerr) ∧
    (s.regs.perr = true → (∀ d, decode w ≠ .command (.start d)) → t.regs.perr = true)

/-- The frame of `BYTE` (R135): it never changes SIGM; it changes PERR only in IDLE and DONE, NCHUNK only with `ok`, ERR and
EPHASE only with `err`; it raises BadSignature only in SIG and ChecksumMismatch only in CRC at IDX 3, and never Truncated. -/
def Obligations.ByteFrame : Prop :=
  ∀ (b : Byte) (s t : State), exec (.byte b) s = .next t →
    t.regs.sigm = s.regs.sigm ∧ t.port = s.port ∧
    (t.regs.perr ≠ s.regs.perr → s.regs.phase = .idle ∨ s.regs.phase = .done) ∧
    (t.regs.nchunk ≠ s.regs.nchunk → t.ev.ok = true) ∧
    (t.ev.err = false → t.regs.err = s.regs.err ∧ t.regs.ephase = s.regs.ephase) ∧
    (t.ev.err = true →
      (t.regs.err = .badSignature ∧ s.regs.phase = .sig) ∨
      (t.regs.err = .checksumMismatch ∧ s.regs.phase = .crc ∧ s.regs.idx = 3#3))

/-- Which commands other than `START` write each datapath register, and with what (R25 to R30): the `BYTE`s named, and nothing
else. (What `START` writes is StartReinitialises.) -/
def Obligations.DatapathRegisterWriters : Prop :=
  ∀ (i : Instr) (s t : State), (∀ d, i ≠ .start d) → exec i s = .next t →
    (t.regs.len ≠ s.regs.len → s.regs.phase = .len ∧ ∃ b, i = .byte b ∧ t.regs.len = (s.regs.len <<< 8) ||| b.setWidth 32) ∧
    (t.regs.type ≠ s.regs.type →
      s.regs.phase = .type ∧ ∃ b, i = .byte b ∧ t.regs.type = (s.regs.type <<< 8) ||| b.setWidth 32) ∧
    (t.regs.rem ≠ s.regs.rem → ∃ b, i = .byte b ∧
      ((s.regs.phase = .len ∧ s.regs.idx = 3#3 ∧ t.regs.rem = t.regs.len) ∨
       (s.regs.phase = .data ∧ t.regs.rem = s.regs.rem - 1#32))) ∧
    (t.regs.crcacc ≠ s.regs.crcacc → ∃ b, i = .byte b ∧
      ((s.regs.phase = .len ∧ s.regs.idx = 3#3 ∧ t.regs.crcacc = 0xFFFFFFFF#32) ∨
       ((s.regs.phase = .type ∨ s.regs.phase = .data) ∧ t.regs.crcacc = crcUpd s.regs.crcacc b))) ∧
    (t.regs.crcrx ≠ s.regs.crcrx →
      s.regs.phase = .crc ∧ ∃ b, i = .byte b ∧ t.regs.crcrx = (s.regs.crcrx <<< 8) ||| b.setWidth 32) ∧
    (t.regs.nchunk ≠ s.regs.nchunk →
      t.ev.ok = true ∧ s.regs.nchunk ≠ 0xFFFFFFFF#32 ∧ t.regs.nchunk = s.regs.nchunk + 1#32)

/-- R23 and R33 over every edge: SIGM changes and PERR is cleared only by `START` or reset. -/
def Obligations.SigmAndPerrClearedOnlyByStart : Prop :=
  ∀ (s t : State) (p : PortSample) (rest : List PortSample),
    s.port = p :: rest → step s = .next t →
    t.regs.sigm ≠ s.regs.sigm ∨ (s.regs.perr = true ∧ t.regs.perr = false) →
    p.rstN = false ∨ (p.cmdValid = true ∧ ∃ d, decode p.cmd = .command (.start d))

/-- The invariants of R34 hold in the reset state. -/
def Obligations.ResetMeetsInvariants : Prop := State.reset.regs.Inv

/-- R34: every edge keeps the invariants (a) to (h), whatever the pins, from every state that meets them. -/
def Obligations.EveryEdgeKeepsInvariants : Prop :=
  State.reset.regs.Inv ∧ ∀ s t : State, s.regs.Inv → step s = .next t → t.regs.Inv

/-- R176, "Cannot occur after `START 0`": the parser is in SIG, or records an error of SIG, only in a stream begun with
`START 1`; this holds after reset and every edge keeps it. -/
def Obligations.SignatureStageNeedsStart1 : Prop :=
  (State.reset.regs.phase = .sig ∨ State.reset.regs.ephase = .sig → State.reset.regs.sigm = true) ∧
  ∀ s t : State, (s.regs.phase = .sig ∨ s.regs.ephase = .sig → s.regs.sigm = true) → step s = .next t →
    (t.regs.phase = .sig ∨ t.regs.ephase = .sig → t.regs.sigm = true)

/-! ### What the host reads -/

/-- R36: STATUS holds the six small registers at their bits, reads 0 above them, and reads 0 after reset. -/
def Obligations.StatusFields : Prop :=
  State.reset.rdData 0#4 = 0x00000000#32 ∧
  ∀ s : State,
    (s.rdData 0#4).extractLsb' 0 3 = s.regs.phase.code ∧ (s.rdData 0#4).extractLsb' 3 3 = s.regs.idx ∧
    (s.rdData 0#4).getLsbD 6 = s.regs.sigm ∧ (s.rdData 0#4).getLsbD 7 = s.regs.perr ∧
    (s.rdData 0#4).extractLsb' 8 2 = s.regs.err.code ∧ (s.rdData 0#4).extractLsb' 10 3 = s.regs.ephase.code ∧
    (s.rdData 0#4).extractLsb' 13 19 = 0#19

/-- R37, R38 and R40: status registers 1 to 6 and 8 to 15, and the reset values of 1 to 6. (That `SR[4]` is the checksum of the
bytes consumed so far is ChecksumReadableDuringFrame.) -/
def Obligations.DatapathStatusRegisters : Prop :=
  ∀ s : State,
    s.rdData 1#4 = s.regs.len ∧ s.rdData 2#4 = s.regs.type ∧ s.rdData 3#4 = s.regs.rem ∧
    s.rdData 4#4 = s.regs.crcacc ^^^ 0xFFFFFFFF#32 ∧ s.rdData 5#4 = s.regs.crcrx ∧ s.rdData 6#4 = s.regs.nchunk ∧
    (∀ n : BitVec 4, 8#4 ≤ n → s.rdData n = 0#32) ∧
    (∀ n : BitVec 4, 1#4 ≤ n → n ≤ 6#4 → State.reset.rdData n = 0#32)

/-- R43: the level outputs. -/
def Obligations.LevelOutputs : Prop :=
  (∀ (s : State) (n : BitVec 4),
    ((s.pins n).busy = true ↔ 1#3 ≤ s.regs.phase.code ∧ s.regs.phase.code ≤ 5#3) ∧
    ((s.pins n).done = true ↔ s.regs.phase = .done) ∧ ((s.pins n).err = true ↔ s.regs.phase = .err) ∧
    (s.pins n).errCode = s.regs.err.code ∧ (s.pins n).perr = s.regs.perr) ∧
  (∀ n : BitVec 4, (State.reset.pins n).busy = false ∧ (State.reset.pins n).done = false ∧
    (State.reset.pins n).err = false ∧ (State.reset.pins n).errCode = 0#2 ∧ (State.reset.pins n).perr = false)

/-- R46: the status registers show the whole register state; two states that read the same everywhere hold the same registers,
and CRCACC is recovered from `SR[4]`. -/
def Obligations.StatusRegistersShowWholeState : Prop :=
  (∀ s t : State, (∀ n : BitVec 4, s.rdData n = t.rdData n) → s.regs = t.regs) ∧
  (∀ s : State, s.regs.crcacc = s.rdData 4#4 ^^^ 0xFFFFFFFF#32)

/-! ### The type code -/

/-- R39 with R117 to R122: each bit of TFLAGS as a condition on TYPE, bits 31:6 zero, and the value at reset. -/
def Obligations.TypeFlagBits : Prop :=
  (∀ s : State,
    let t := s.regs.type
    let letter (b : Byte) : Prop := (0x41#8 ≤ b ∧ b ≤ 0x5A#8) ∨ (0x61#8 ≤ b ∧ b ≤ 0x7A#8)
    let allLetters : Prop :=
      letter (t.extractLsb' 24 8) ∧ letter (t.extractLsb' 16 8) ∧ letter (t.extractLsb' 8 8) ∧ letter (t.extractLsb' 0 8)
    ((s.rdData 7#4).getLsbD 0 = true ↔ t.getLsbD 29 = false) ∧
    ((s.rdData 7#4).getLsbD 1 = true ↔ t.getLsbD 21 = false) ∧
    ((s.rdData 7#4).getLsbD 2 = true ↔ t.getLsbD 13 = false) ∧
    ((s.rdData 7#4).getLsbD 3 = true ↔ t.getLsbD 5 = true) ∧
    ((s.rdData 7#4).getLsbD 4 = true ↔ allLetters ∧ t.getLsbD 13 = false) ∧
    ((s.rdData 7#4).getLsbD 5 = true ↔ allLetters) ∧
    (s.rdData 7#4).extractLsb' 6 26 = 0#26) ∧
  State.reset.rdData 7#4 = 0x00000007#32

/-- R126: TFLAGS of the source's example types. -/
def Obligations.TypeFlagExamples : Prop :=
  tflags 0x52755374#32 = 0x3D#32 ∧ tflags 0x72755374#32 = 0x3C#32 ∧ tflags 0x52555374#32 = 0x3F#32 ∧
  tflags 0x52757374#32 = 0x29#32 ∧ tflags 0x52755354#32 = 0x35#32 ∧ tflags 0x52753174#32 = 0x09#32

/-- R123: for a byte that is a letter, bit 5 is 0 exactly for the upper case. -/
def Obligations.CaseBitOfLetters : Prop :=
  ∀ b : Byte, alpha b = true → (b.getLsbD 5 = false ↔ 0x41#8 ≤ b ∧ b ≤ 0x5A#8)

/-- R115, R116: the fold and the unfold of a type code are inverse bijections. -/
def Obligations.FoldUnfoldInverse : Prop :=
  (∀ b0 b1 b2 b3 : Byte, unfold4 (fold4 b0 b1 b2 b3) = [b0, b1, b2, b3]) ∧
  (∀ t : Word, fold4 (t.extractLsb' 24 8) (t.extractLsb' 16 8) (t.extractLsb' 8 8) (t.extractLsb' 0 8) = t)

/-- R93: the big-endian value of four bytes, and four bytes shifted in, from any content, give it. -/
def Obligations.FourBytesAssembleBigEndian : Prop :=
  (∀ b0 b1 b2 b3 : Byte,
    fold4 b0 b1 b2 b3 =
      (b0.setWidth 32 <<< 24) ||| (b1.setWidth 32 <<< 16) ||| (b2.setWidth 32 <<< 8) ||| b3.setWidth 32) ∧
  (∀ (r : Word) (b0 b1 b2 b3 : Byte),
    shiftIn (shiftIn (shiftIn (shiftIn r b0) b1) b2) b3 =
      (b0.setWidth 32 <<< 24) ||| (b1.setWidth 32 <<< 16) ||| (b2.setWidth 32 <<< 8) ||| b3.setWidth 32) ∧
  fold4 0x00 0x00 0x00 0x2A = 42#32 ∧ fold4 0xAB 0xD1 0xD8 0x4E = 2882656334#32 ∧
  fold4 0x52 0x75 0x53 0x74 = 0x52755374#32

/-- R65: a field read when `k` of its four bytes are in holds those bytes at the bottom, most significant first, and the low bits
of the register's previous content above them. -/
def Obligations.PartialFieldReads : Prop :=
  ∀ (r : Word) (b0 b1 b2 : Byte),
    shiftIn r b0 = r.extractLsb' 0 24 ++ b0 ∧
    shiftIn (shiftIn r b0) b1 = r.extractLsb' 0 16 ++ b0 ++ b1 ∧
    shiftIn (shiftIn (shiftIn r b0) b1) b2 = r.extractLsb' 0 8 ++ b0 ++ b1 ++ b2

/-! ### The CRC unit -/

/-- Values of the checksum from R100, R106 and the vectors X2 to X13. -/
def Obligations.CrcKnownValues : Prop :=
  crc32 [] = 0x00000000#32 ∧
  crc32 [0x31, 0x32, 0x33, 0x34, 0x35, 0x36, 0x37, 0x38, 0x39] = 0xCBF43926#32 ∧
  crc32 [0x00] = 0xD202EF8D#32 ∧ crc32 [0xFF] = 0xFF000000#32 ∧
  crc32 [0x49, 0x45, 0x4E, 0x44] = 0xAE426082#32 ∧
  crc32 [0x52, 0x75, 0x53, 0x74, 0x54, 0x68, 0x69, 0x73, 0x20, 0x69, 0x73, 0x20, 0x77, 0x68, 0x65, 0x72, 0x65, 0x20, 0x79,
         0x6F, 0x75, 0x72, 0x20, 0x73, 0x65, 0x63, 0x72, 0x65, 0x74, 0x20, 0x6D, 0x65, 0x73, 0x73, 0x61, 0x67, 0x65, 0x20,
         0x77, 0x69, 0x6C, 0x6C, 0x20, 0x62, 0x65, 0x21] = 2882656334#32

/-- R101: the update is eight passes of the rule's loop; for a fixed byte it is a bijection of the accumulator; and it depends on
the accumulator and the byte only through their XOR. -/
def Obligations.CrcUpdateIsBijection : Prop :=
  (∀ (c : Word) (b : Byte), crcUpd c b =
    (fun x : Word => if x.getLsbD 0 then (x >>> 1) ^^^ 0xEDB88320#32 else x >>> 1)^[8] (c ^^^ b.setWidth 32)) ∧
  (∀ b : Byte, Function.Bijective fun c => crcUpd c b) ∧
  (∀ (c : Word) (b : Byte), crcUpd c b = crcUpd (c ^^^ b.setWidth 32) 0x00#8)

/-- R103: the table form of the update, with the entries the rule lists. -/
def Obligations.CrcTableForm : Prop :=
  (∀ (c : Word) (b : Byte), crcUpd c b = crcTable ((c ^^^ b.setWidth 32).extractLsb' 0 8) ^^^ (c >>> 8)) ∧
  crcTable 0x00#8 = 0x00000000#32 ∧ crcTable 0x01#8 = 0x77073096#32 ∧ crcTable 0x02#8 = 0xEE0E612C#32 ∧
  crcTable 0x08#8 = 0x0EDB8832#32 ∧ crcTable 0x80#8 = 0xEDB88320#32 ∧ crcTable 0xFF#8 = 0x2D02EF8D#32

/-- R107 (c), for any change confined to one byte: the checksum changes. -/
def Obligations.CrcDetectsOneChangedByte : Prop :=
  ∀ (before after : List Byte) (b b' : Byte), b ≠ b' →
    crc32 (before ++ b :: after) ≠ crc32 (before ++ b' :: after)

/-! ### Frames and streams -/

/-- R143: from the frame boundary a frame of declared length `L` takes `12 + L` `BYTE` steps with the events of the rule; with
the right checksum the parser is back at the boundary and NCHUNK is one higher, with a wrong one it is in ERR. -/
def Obligations.FrameFromBoundary : Prop :=
  (∀ (f : Frame) (stored : Word) (s : State), f.fits → s.regs.phase = .len → s.regs.idx = 0#3 →
    (f.bytesWith stored).length = 12 + f.payload.length ∧
    (stored = crc32 f.body →
      runWords (byteWords (f.bytesWith stored)) s = some
        ({ s with regs := { s.regs with len := f.length, type := f.type, rem := 0#32, crcacc := stored ^^^ 0xFFFFFFFF#32
                                        crcrx := stored, nchunk := satInc32 s.regs.nchunk }
                  ev := Events.emitOk },
         f.events Events.emitOk)) ∧
    (stored ≠ crc32 f.body →
      runWords (byteWords (f.bytesWith stored)) s = some
        ({ s with regs := { s.regs with phase := .err, idx := 3#3, len := f.length, type := f.type, rem := 0#32
                                        crcacc := crc32 f.body ^^^ 0xFFFFFFFF#32, crcrx := stored
                                        err := .checksumMismatch, ephase := .crc }
                  ev := Events.emitErr },
         f.events Events.emitErr))) ∧
  (∀ (d : Byte) (s : State), exec (.nop d) s = .next { s with ev := Events.none })

/-- R104, R168: while a frame is consumed, `SR[4]` reads the checksum of the bytes of `type ‖ payload` consumed so far; when all
of them are in, the parser is in CRC at IDX 0 and `SR[4]` is the checksum of a new chunk. -/
def Obligations.ChecksumReadableDuringFrame : Prop :=
  ∀ (f : Frame) (k : Nat) (s : State), f.fits → k ≤ f.body.length →
    ∃ t es, runWords (startWord false :: byteWords (unfold4 f.length ++ f.body.take k)) s = some (t, es) ∧
      t.rdData 4#4 = crc32 (f.body.take k) ∧
      (k = f.body.length → t.regs.phase = .crc ∧ t.regs.idx = 0#3)

/-- R147 (a): a buffer that does not begin with the signature, parsed with `START 1`, ends in BadSignature with no `hdr`,
payload or `ok`. -/
def Obligations.BadSignatureStream : Prop :=
  ∀ (buf : List Byte) (s : State), ¬ sigRom <+: buf →
    ∃ t es, runWords (parseWords true buf) s = some (t, es) ∧
      t.regs.phase = .err ∧ t.regs.err = .badSignature ∧ t.regs.ephase = .sig ∧
      ∀ e ∈ es, e.hdr = false ∧ e.plValid = false ∧ e.ok = false

/-- R147 (b): a stream of `k` good frames, with its signature where the mode asks for one, ends in DONE with NCHUNK = `k`
(saturated), and the events are those of the frames in order. -/
def Obligations.GoodStreamParses : Prop :=
  ∀ (sig : Bool) (fs : List Frame) (s : State), (∀ f ∈ fs, f.fits) →
    ∃ t, runWords (parseWords sig (streamBytes sig fs)) s = some (t, streamEvents sig fs ++ [Events.emitDone]) ∧
      t.regs.phase = .done ∧ t.regs.idx = 0#3 ∧ t.regs.sigm = sig ∧ t.regs.nchunk = nchunkOf fs.length ∧
      t.regs.err = .noError ∧ t.regs.perr = false ∧ t.port = s.port

/-- R147 (c): a whole frame with a wrong stored checksum after `k` good ones ends in ChecksumMismatch after `k` `ok`s, and
whatever follows it is discarded. -/
def Obligations.MismatchStream : Prop :=
  ∀ (sig : Bool) (fs : List Frame) (f : Frame) (stored : Word) (tail : List Byte) (s : State),
    (∀ g ∈ fs, g.fits) → f.fits → stored ≠ crc32 f.body →
    ∃ t, runWords (parseWords sig (streamBytes sig fs ++ f.bytesWith stored ++ tail)) s =
        some (t, streamEvents sig fs ++ f.events Events.emitErr ++ List.replicate (tail.length + 1) Events.none) ∧
      t.regs.phase = .err ∧ t.regs.err = .checksumMismatch ∧ t.regs.ephase = .crc ∧ t.regs.crcrx = stored ∧
      t.regs.nchunk = nchunkOf fs.length

/-- R147 (d): a rest shorter than the frame it announces, or too short to announce one, after `k` good frames ends in Truncated
after `k` `ok`s. -/
def Obligations.TruncatedStream : Prop :=
  ∀ (sig : Bool) (fs : List Frame) (rest : List Byte) (s : State),
    (∀ g ∈ fs, g.fits) → rest ≠ [] →
    rest.length < 4 ∨ (∃ (l : Word) (more : List Byte), rest = unfold4 l ++ more ∧ more.length < 8 + l.toNat) →
    ∃ t es, runWords (parseWords sig (streamBytes sig fs ++ rest)) s =
        some (t, streamEvents sig fs ++ es ++ [Events.emitErr]) ∧
      es.length = rest.length ∧ (∀ e ∈ es, e.ok = false ∧ e.err = false) ∧
      t.regs.phase = .err ∧ t.regs.err = .truncated ∧ t.regs.nchunk = nchunkOf fs.length

/-- R107 (c) at the pins: one changed byte of type or payload, with the checksum left as it was, ends in ChecksumMismatch. -/
def Obligations.ChangedByteFailsFrame : Prop :=
  ∀ (f : Frame) (before after : List Byte) (b b' : Byte) (s : State),
    f.fits → f.body = before ++ b :: after → b ≠ b' →
    ∃ t es, runWords (startWord false ::
        byteWords (unfold4 f.length ++ (before ++ b' :: after) ++ unfold4 (crc32 f.body))) s = some (t, es) ∧
      t.regs.phase = .err ∧ t.regs.err = .checksumMismatch

/-- R61, R161: edges with `cmd_valid = 0` and `NOP`s are not part of the stream: taking them out of any sequence of samples leaves
the same registers at the end and the same events in the same order. -/
def Obligations.QuietEdgesDoNotMatter : Prop :=
  ∀ (ps : List PortSample) (s : State),
    ∃ t es t' es',
      runEdges ps.length (s.presentSamples ps) = some (t, es) ∧
      runEdges (ps.filter fun p => !p.quiet).length (s.presentSamples (ps.filter fun p => !p.quiet)) = some (t', es') ∧
      t.regs = t'.regs ∧ t.port = t'.port ∧
      (es.filter fun e => e != Events.none) = es'.filter fun e => e != Events.none

/-- R162, D10: `START` makes a stream independent of history: whatever the two states before it, the same words after it give the
same events and the same registers. -/
def Obligations.StartErasesHistory : Prop :=
  ∀ (sig : Bool) (ws : List CmdWord) (s s' : State),
    ∃ t t' es, runWords (startWord sig :: ws) s = some (t, es) ∧
      runWords (startWord sig :: ws) s' = some (t', es) ∧ t.regs = t'.regs

/-- R212: the signature bytes after `START 0` are taken as a length and a type, and everything after them as payload, so that
`END` within it is Truncated; a stream that does not begin with 0x89 fails at its first byte after `START 1`. -/
def Obligations.ModeMustMatchStream : Prop :=
  (∀ (m : List Byte) (s : State), m.length < 0x89504E47 →
    ∃ t es, runWords (startWord false :: (byteWords (sigRom ++ m) ++ [endWord])) s =
        some (t, List.replicate 8 Events.none ++ [Events.emitHdr] ++ es ++ [Events.emitErr]) ∧
      es = m.map (fun b => Events.emitPayload b false) ∧
      t.regs.len = 2303741511#32 ∧ t.regs.type = 0x0D0A1A0A#32 ∧ t.regs.err = .truncated) ∧
  (∀ (b : Byte) (s : State), b ≠ 0x89#8 →
    ∃ t, runWords [startWord true, encode (.byte b)] s = some (t, [Events.none, Events.emitErr]) ∧
      t.regs.err = .badSignature ∧ t.regs.idx = 0#3)
end

