-- ==== Sys2Proof/Config.lean ====
section
/-! DEFINITION. What an implementation fixes. Every parameter of R7 has one value and stands where it is used, except the two
timing parameters below, which the spec leaves OPEN and on which no rule depends (R7, R214, U4). They have no value here, so
nothing can be proved that rests on one. -/

namespace Sys2Proof

/-- `P_EVENT_LATENCY`: clock edges between accepting a command and its events being visible (R7, R45). OPEN, default 1.
No definition of the model reads it: a step returns the state and its events together (D21; log entry 4). -/
opaque Config.eventLatency : Nat

/-- `P_CLK_PERIOD`: the clock period (R7, R214). OPEN. No definition of the model reads it (log entry 4). -/
opaque Config.clkPeriod : Nat

end Sys2Proof
end

