-- ==== Sys2Proof/Laws/Bits.lean ====
section
/-! SUPPORT. The bits of a field filled a byte at a time, and of a word cut into bytes (R63, R93, R115, R116). -/

namespace Sys2Proof.Machine

/-- Shifting a byte in puts it at the bottom and moves the rest up by eight. -/
theorem getLsbD_shiftIn (r : Word) (b : Byte) {i : Nat} (hi : i < 32) :
    (shiftIn r b).getLsbD i = if i < 8 then b.getLsbD i else r.getLsbD (i - 8) := by
  simp only [shiftIn, zext32, BitVec.getLsbD_or, BitVec.getLsbD_shiftLeft, BitVec.getLsbD_setWidth]
  by_cases h : i < 8
  · simp [h, hi]
  · simp [h, hi, BitVec.getLsbD_of_ge b i (by omega)]

/-- The four bytes of a word sit at its bits, most significant first. -/
theorem getLsbD_fold4 (b0 b1 b2 b3 : Byte) (i : Nat) :
    (fold4 b0 b1 b2 b3).getLsbD i =
      if i < 8 then b3.getLsbD i else if i < 16 then b2.getLsbD (i - 8) else if i < 24 then b1.getLsbD (i - 16)
      else b0.getLsbD (i - 24) := by
  unfold fold4
  rw [BitVec.getLsbD_append, BitVec.getLsbD_append, BitVec.getLsbD_append]
  by_cases h8 : i < 8
  · simp only [h8, if_true]
  by_cases h16 : i < 16
  · have : i - 8 < 8 := by omega
    simp only [h8, h16, this, if_true, if_false]
  by_cases h24 : i < 24
  · have a : ¬ i - 8 < 8 := by omega
    have b : i - 8 - 8 < 8 := by omega
    have e : i - 8 - 8 = i - 16 := by omega
    simp only [h8, h16, h24, a, e ▸ b, e, if_true, if_false]
  · have a : ¬ i - 8 < 8 := by omega
    have e : i - 8 - 8 = i - 16 := by omega
    have b : ¬ i - 16 < 8 := by omega
    have e' : i - 16 - 8 = i - 24 := by omega
    simp only [h8, h16, h24, a, b, e, e', if_false]

/-- Filling a field with the four bytes of `t` leaves `t`, whatever it held before. -/
theorem shiftIn_bytes (r t : Word) :
    shiftIn (shiftIn (shiftIn (shiftIn r (byte0 t)) (byte1 t)) (byte2 t)) (byte3 t) = t := by
  apply BitVec.eq_of_getLsbD_eq
  intro i hi
  simp only [getLsbD_shiftIn, hi, byte0, byte1, byte2, byte3, BitVec.getLsbD_extractLsb']
  by_cases h8 : i < 8
  · simp [h8]
  by_cases h16 : i < 16
  · have h : i - 8 < 8 := by omega
    have e : 8 + (i - 8) = i := by omega
    simp [h8, h, e, getLsbD_shiftIn _ _ (show i - 8 < 32 by omega)]
  by_cases h24 : i < 24
  · have h : i - 8 - 8 < 8 := by omega
    have h' : ¬ i - 8 < 8 := by omega
    have e : 16 + (i - 8 - 8) = i := by omega
    simp [h8, h, h', e, getLsbD_shiftIn _ _ (show i - 8 < 32 by omega), getLsbD_shiftIn _ _ (show i - 8 - 8 < 32 by omega)]
  · have h : i - 8 - 8 - 8 < 8 := by omega
    have h' : ¬ i - 8 < 8 := by omega
    have h'' : ¬ i - 8 - 8 < 8 := by omega
    have e : 24 + (i - 8 - 8 - 8) = i := by omega
    simp [h8, h, h', h'', e, getLsbD_shiftIn _ _ (show i - 8 < 32 by omega), getLsbD_shiftIn _ _ (show i - 8 - 8 < 32 by omega),
      getLsbD_shiftIn _ _ (show i - 8 - 8 - 8 < 32 by omega)]

/-- What `alpha` tests (R121). -/
theorem alpha_iff (b : Byte) : alpha b = true ↔ (0x41#8 ≤ b ∧ b ≤ 0x5A#8) ∨ (0x61#8 ≤ b ∧ b ≤ 0x7A#8) := by
  unfold alpha
  rw [Bool.or_eq_true, Bool.and_eq_true, Bool.and_eq_true, decide_eq_true_iff, decide_eq_true_iff, decide_eq_true_iff,
    decide_eq_true_iff]

end Sys2Proof.Machine
end

