-- ==== Sys2Proof/Laws/State.lean ====
section
/-! SUPPORT. One lemma per register per update of the shared operations, true by rfl: no later proof unfolds a record update. -/

namespace Sys2Proof.Machine

section Goto
variable (r : Regs) (p : Phase) (i : Idx)
@[simp] theorem Regs.goto_phase : (r.goto p i).phase = p := rfl
@[simp] theorem Regs.goto_idx : (r.goto p i).idx = i := rfl
@[simp] theorem Regs.goto_sigm : (r.goto p i).sigm = r.sigm := rfl
@[simp] theorem Regs.goto_len : (r.goto p i).len = r.len := rfl
@[simp] theorem Regs.goto_type : (r.goto p i).type = r.type := rfl
@[simp] theorem Regs.goto_rem : (r.goto p i).rem = r.rem := rfl
@[simp] theorem Regs.goto_crcacc : (r.goto p i).crcacc = r.crcacc := rfl
@[simp] theorem Regs.goto_crcrx : (r.goto p i).crcrx = r.crcrx := rfl
@[simp] theorem Regs.goto_nchunk : (r.goto p i).nchunk = r.nchunk := rfl
@[simp] theorem Regs.goto_err : (r.goto p i).err = r.err := rfl
@[simp] theorem Regs.goto_ephase : (r.goto p i).ephase = r.ephase := rfl
@[simp] theorem Regs.goto_perr : (r.goto p i).perr = r.perr := rfl
end Goto

section NextByte
variable (r : Regs)
@[simp] theorem Regs.nextByte_phase : r.nextByte.phase = r.phase := rfl
@[simp] theorem Regs.nextByte_idx : r.nextByte.idx = r.idx + 1#3 := rfl
@[simp] theorem Regs.nextByte_sigm : r.nextByte.sigm = r.sigm := rfl
@[simp] theorem Regs.nextByte_len : r.nextByte.len = r.len := rfl
@[simp] theorem Regs.nextByte_type : r.nextByte.type = r.type := rfl
@[simp] theorem Regs.nextByte_rem : r.nextByte.rem = r.rem := rfl
@[simp] theorem Regs.nextByte_crcacc : r.nextByte.crcacc = r.crcacc := rfl
@[simp] theorem Regs.nextByte_crcrx : r.nextByte.crcrx = r.crcrx := rfl
@[simp] theorem Regs.nextByte_nchunk : r.nextByte.nchunk = r.nchunk := rfl
@[simp] theorem Regs.nextByte_err : r.nextByte.err = r.err := rfl
@[simp] theorem Regs.nextByte_ephase : r.nextByte.ephase = r.ephase := rfl
@[simp] theorem Regs.nextByte_perr : r.nextByte.perr = r.perr := rfl
end NextByte

section Raise
variable (r : Regs) (e : FrameError)
@[simp] theorem Regs.raise_phase : (r.raise e).phase = .err := rfl
@[simp] theorem Regs.raise_idx : (r.raise e).idx = r.idx := rfl
@[simp] theorem Regs.raise_sigm : (r.raise e).sigm = r.sigm := rfl
@[simp] theorem Regs.raise_len : (r.raise e).len = r.len := rfl
@[simp] theorem Regs.raise_type : (r.raise e).type = r.type := rfl
@[simp] theorem Regs.raise_rem : (r.raise e).rem = r.rem := rfl
@[simp] theorem Regs.raise_crcacc : (r.raise e).crcacc = r.crcacc := rfl
@[simp] theorem Regs.raise_crcrx : (r.raise e).crcrx = r.crcrx := rfl
@[simp] theorem Regs.raise_nchunk : (r.raise e).nchunk = r.nchunk := rfl
@[simp] theorem Regs.raise_err : (r.raise e).err = e.errCode := rfl
@[simp] theorem Regs.raise_ephase : (r.raise e).ephase = r.phase := rfl
@[simp] theorem Regs.raise_perr : (r.raise e).perr = r.perr := rfl
end Raise

section Started
variable (sig : Bool)
@[simp] theorem Regs.started_phase : (Regs.started sig).phase = if sig then .sig else .len := rfl
@[simp] theorem Regs.started_idx : (Regs.started sig).idx = Regs.reset.idx := rfl
@[simp] theorem Regs.started_sigm : (Regs.started sig).sigm = sig := rfl
@[simp] theorem Regs.started_len : (Regs.started sig).len = Regs.reset.len := rfl
@[simp] theorem Regs.started_type : (Regs.started sig).type = Regs.reset.type := rfl
@[simp] theorem Regs.started_rem : (Regs.started sig).rem = Regs.reset.rem := rfl
@[simp] theorem Regs.started_crcacc : (Regs.started sig).crcacc = Regs.reset.crcacc := rfl
@[simp] theorem Regs.started_crcrx : (Regs.started sig).crcrx = Regs.reset.crcrx := rfl
@[simp] theorem Regs.started_nchunk : (Regs.started sig).nchunk = Regs.reset.nchunk := rfl
@[simp] theorem Regs.started_err : (Regs.started sig).err = Regs.reset.err := rfl
@[simp] theorem Regs.started_ephase : (Regs.started sig).ephase = Regs.reset.ephase := rfl
@[simp] theorem Regs.started_perr : (Regs.started sig).perr = Regs.reset.perr := rfl
end Started

section Reset
@[simp] theorem Regs.reset_phase : Regs.reset.phase = .idle := rfl
@[simp] theorem Regs.reset_idx : Regs.reset.idx = 0#3 := rfl
@[simp] theorem Regs.reset_sigm : Regs.reset.sigm = false := rfl
@[simp] theorem Regs.reset_len : Regs.reset.len = 0#32 := rfl
@[simp] theorem Regs.reset_type : Regs.reset.type = 0#32 := rfl
@[simp] theorem Regs.reset_rem : Regs.reset.rem = 0#32 := rfl
@[simp] theorem Regs.reset_crcacc : Regs.reset.crcacc = 0xFFFFFFFF#32 := rfl
@[simp] theorem Regs.reset_crcrx : Regs.reset.crcrx = 0#32 := rfl
@[simp] theorem Regs.reset_nchunk : Regs.reset.nchunk = 0#32 := rfl
@[simp] theorem Regs.reset_err : Regs.reset.err = .noError := rfl
@[simp] theorem Regs.reset_ephase : Regs.reset.ephase = .idle := rfl
@[simp] theorem Regs.reset_perr : Regs.reset.perr = false := rfl
end Reset

section Port
variable (s : State) (w : CmdWord) (ws : List CmdWord)
@[simp] theorem State.afterEdge_regs : s.afterEdge.regs = s.regs := rfl
@[simp] theorem State.afterEdge_ev : s.afterEdge.ev = s.ev := rfl
@[simp] theorem State.afterEdge_port : s.afterEdge.port = s.port.tail := rfl
@[simp] theorem State.present_regs : (s.present w).regs = s.regs := rfl
@[simp] theorem State.present_ev : (s.present w).ev = s.ev := rfl
@[simp] theorem State.present_port : (s.present w).port = PortSample.ofCommand w :: s.port := rfl
@[simp] theorem State.present_afterEdge : (s.present w).afterEdge = s := rfl
@[simp] theorem PortSample.ofCommand_action : (PortSample.ofCommand w).action = .command w := rfl
end Port

section Events
variable (b : Byte) (l : Bool)
@[simp] theorem Events.none_hdr : Events.none.hdr = false := rfl
@[simp] theorem Events.none_plValid : Events.none.plValid = false := rfl
@[simp] theorem Events.none_plData : Events.none.plData = 0x00#8 := rfl
@[simp] theorem Events.none_plLast : Events.none.plLast = false := rfl
@[simp] theorem Events.none_ok : Events.none.ok = false := rfl
@[simp] theorem Events.none_err : Events.none.err = false := rfl
@[simp] theorem Events.none_done : Events.none.done = false := rfl
@[simp] theorem Events.none_perr : Events.none.perr = false := rfl
@[simp] theorem Events.emitHdr_hdr : Events.emitHdr.hdr = true := rfl
@[simp] theorem Events.emitHdr_plValid : Events.emitHdr.plValid = false := rfl
@[simp] theorem Events.emitHdr_plData : Events.emitHdr.plData = 0x00#8 := rfl
@[simp] theorem Events.emitHdr_plLast : Events.emitHdr.plLast = false := rfl
@[simp] theorem Events.emitHdr_ok : Events.emitHdr.ok = false := rfl
@[simp] theorem Events.emitHdr_err : Events.emitHdr.err = false := rfl
@[simp] theorem Events.emitHdr_done : Events.emitHdr.done = false := rfl
@[simp] theorem Events.emitHdr_perr : Events.emitHdr.perr = false := rfl
@[simp] theorem Events.emitPayload_hdr : (Events.emitPayload b l).hdr = false := rfl
@[simp] theorem Events.emitPayload_plValid : (Events.emitPayload b l).plValid = true := rfl
@[simp] theorem Events.emitPayload_plData : (Events.emitPayload b l).plData = b := rfl
@[simp] theorem Events.emitPayload_plLast : (Events.emitPayload b l).plLast = l := rfl
@[simp] theorem Events.emitPayload_ok : (Events.emitPayload b l).ok = false := rfl
@[simp] theorem Events.emitPayload_err : (Events.emitPayload b l).err = false := rfl
@[simp] theorem Events.emitPayload_done : (Events.emitPayload b l).done = false := rfl
@[simp] theorem Events.emitPayload_perr : (Events.emitPayload b l).perr = false := rfl
@[simp] theorem Events.emitOk_hdr : Events.emitOk.hdr = false := rfl
@[simp] theorem Events.emitOk_plValid : Events.emitOk.plValid = false := rfl
@[simp] theorem Events.emitOk_plData : Events.emitOk.plData = 0x00#8 := rfl
@[simp] theorem Events.emitOk_plLast : Events.emitOk.plLast = false := rfl
@[simp] theorem Events.emitOk_ok : Events.emitOk.ok = true := rfl
@[simp] theorem Events.emitOk_err : Events.emitOk.err = false := rfl
@[simp] theorem Events.emitOk_done : Events.emitOk.done = false := rfl
@[simp] theorem Events.emitOk_perr : Events.emitOk.perr = false := rfl
@[simp] theorem Events.emitErr_hdr : Events.emitErr.hdr = false := rfl
@[simp] theorem Events.emitErr_plValid : Events.emitErr.plValid = false := rfl
@[simp] theorem Events.emitErr_plData : Events.emitErr.plData = 0x00#8 := rfl
@[simp] theorem Events.emitErr_plLast : Events.emitErr.plLast = false := rfl
@[simp] theorem Events.emitErr_ok : Events.emitErr.ok = false := rfl
@[simp] theorem Events.emitErr_err : Events.emitErr.err = true := rfl
@[simp] theorem Events.emitErr_done : Events.emitErr.done = false := rfl
@[simp] theorem Events.emitErr_perr : Events.emitErr.perr = false := rfl
@[simp] theorem Events.emitDone_hdr : Events.emitDone.hdr = false := rfl
@[simp] theorem Events.emitDone_plValid : Events.emitDone.plValid = false := rfl
@[simp] theorem Events.emitDone_plData : Events.emitDone.plData = 0x00#8 := rfl
@[simp] theorem Events.emitDone_plLast : Events.emitDone.plLast = false := rfl
@[simp] theorem Events.emitDone_ok : Events.emitDone.ok = false := rfl
@[simp] theorem Events.emitDone_err : Events.emitDone.err = false := rfl
@[simp] theorem Events.emitDone_done : Events.emitDone.done = true := rfl
@[simp] theorem Events.emitDone_perr : Events.emitDone.perr = false := rfl
@[simp] theorem Events.emitPerr_hdr : Events.emitPerr.hdr = false := rfl
@[simp] theorem Events.emitPerr_plValid : Events.emitPerr.plValid = false := rfl
@[simp] theorem Events.emitPerr_plData : Events.emitPerr.plData = 0x00#8 := rfl
@[simp] theorem Events.emitPerr_plLast : Events.emitPerr.plLast = false := rfl
@[simp] theorem Events.emitPerr_ok : Events.emitPerr.ok = false := rfl
@[simp] theorem Events.emitPerr_err : Events.emitPerr.err = false := rfl
@[simp] theorem Events.emitPerr_done : Events.emitPerr.done = false := rfl
@[simp] theorem Events.emitPerr_perr : Events.emitPerr.perr = true := rfl
end Events

end Sys2Proof.Machine
end

