-- ==== Sys2Proof/Laws/Ops.lean ====
section
/-! SUPPORT. One lemma per shared operation: everything it can do. -/

namespace Sys2Proof.Machine

theorem State.complete_next (s : State) (r : Regs) (e : Events) :
    s.complete r e = .next { s with regs := r, ev := e } := rfl

theorem State.complete_inv {s t : State} {r : Regs} {e : Events} (h : s.complete r e = .next t) :
    t.regs = r ∧ t.ev = e ∧ t.port = s.port := by
  cases h; exact ⟨rfl, rfl, rfl⟩

theorem State.frameError_next (s : State) (r : Regs) (e : FrameError) :
    s.frameError r e = .next { s with regs := r.raise e, ev := Events.emitErr } := rfl

theorem State.frameError_inv {s t : State} {r : Regs} {e : FrameError} (h : s.frameError r e = .next t) :
    t.regs = r.raise e ∧ t.ev = Events.emitErr ∧ t.port = s.port :=
  State.complete_inv h

theorem State.protocolError_next (s : State) :
    s.protocolError = .next { s with regs := { s.regs with perr := true }, ev := Events.emitPerr } := rfl

theorem State.protocolError_inv {s t : State} (h : s.protocolError = .next t) :
    t.regs = { s.regs with perr := true } ∧ t.ev = Events.emitPerr ∧ t.port = s.port :=
  State.complete_inv h

theorem State.reservedWord_inv {s t : State} (h : s.reservedWord = .next t) :
    t.regs = { s.regs with perr := true } ∧ t.ev = Events.emitPerr ∧ t.port = s.port :=
  State.protocolError_inv h

theorem State.noEffect_inv {s t : State} (h : s.noEffect = .next t) :
    t.regs = s.regs ∧ t.ev = Events.none ∧ t.port = s.port :=
  State.complete_inv h

theorem State.idleEdge_inv {s t : State} (h : s.idleEdge = .next t) :
    t.regs = s.regs ∧ t.ev = Events.none ∧ t.port = s.port :=
  State.complete_inv h

theorem State.hardReset_inv {s t : State} (h : s.hardReset = .next t) :
    t.regs = Regs.reset ∧ t.ev = Events.none ∧ t.port = s.port :=
  State.complete_inv h

theorem FrameError.errCode_ne_noError (e : FrameError) : e.errCode ≠ .noError := by
  cases e <;> decide

/-- The codes of two phases are equal only where the phases are (R21: eight values, eight names). -/
theorem Phase.code_injective {p q : Phase} (h : p.code = q.code) : p = q := by
  cases p <;> cases q <;> first | rfl | exact absurd h (by decide)

/-- The codes of two error codes are equal only where they are the same error (R31). -/
theorem ErrCode.code_injective {p q : ErrCode} (h : p.code = q.code) : p = q := by
  cases p <;> cases q <;> first | rfl | exact absurd h (by decide)

theorem nextOf_complete (s : State) (r : Regs) (e : Events) :
    nextOf (s.complete r e) = some { s with regs := r, ev := e } := rfl

end Sys2Proof.Machine
end

