-- ==== Sys2Proof/Laws/Byte.lean ====
section
/-! SUPPORT. What `BYTE`, `END` and `START` can do, once: later proofs take the cases of these relations instead of unfolding a
meaning. -/

namespace Sys2Proof.Machine

/-- Everything `BYTE b` can do to the registers `r`, with the event it emits: one case per branch of R136 to R142. -/
inductive ByteCase (b : Byte) (r : Regs) : Regs → Events → Prop where
  | sigLast (hp : r.phase = .sig) (hb : b = sigRomAt r.idx) (hi : r.idx = 7#3) :
      ByteCase b r (r.goto .len 0#3) Events.none
  | sigNext (hp : r.phase = .sig) (hb : b = sigRomAt r.idx) (hi : r.idx ≠ 7#3) :
      ByteCase b r r.nextByte Events.none
  | sigBad (hp : r.phase = .sig) (hb : b ≠ sigRomAt r.idx) :
      ByteCase b r (r.raise .badSignature) Events.emitErr
  | lenLast (hp : r.phase = .len) (hi : r.idx = 3#3) :
      ByteCase b r ({ r with len := shiftIn r.len b, rem := shiftIn r.len b, crcacc := crcInit }.goto .type 0#3) Events.none
  | lenNext (hp : r.phase = .len) (hi : r.idx ≠ 3#3) :
      ByteCase b r { r with len := shiftIn r.len b }.nextByte Events.none
  | typeLastEmpty (hp : r.phase = .type) (hi : r.idx = 3#3) (hr : r.rem = 0#32) :
      ByteCase b r ({ r with type := shiftIn r.type b, crcacc := crcUpd r.crcacc b }.goto .crc 0#3) Events.emitHdr
  | typeLast (hp : r.phase = .type) (hi : r.idx = 3#3) (hr : r.rem ≠ 0#32) :
      ByteCase b r ({ r with type := shiftIn r.type b, crcacc := crcUpd r.crcacc b }.goto .data 0#3) Events.emitHdr
  | typeNext (hp : r.phase = .type) (hi : r.idx ≠ 3#3) :
      ByteCase b r { r with type := shiftIn r.type b, crcacc := crcUpd r.crcacc b }.nextByte Events.none
  | dataLast (hp : r.phase = .data) (hr : r.rem = 1#32) :
      ByteCase b r ({ r with crcacc := crcUpd r.crcacc b, rem := r.rem - 1#32 }.goto .crc 0#3) (Events.emitPayload b true)
  | dataNext (hp : r.phase = .data) (hr : r.rem ≠ 1#32) :
      ByteCase b r { r with crcacc := crcUpd r.crcacc b, rem := r.rem - 1#32 } (Events.emitPayload b false)
  | crcOk (hp : r.phase = .crc) (hi : r.idx = 3#3) (hc : shiftIn r.crcrx b = crcFinal r.crcacc) :
      ByteCase b r ({ r with crcrx := shiftIn r.crcrx b, nchunk := satInc32 r.nchunk }.goto .len 0#3) Events.emitOk
  | crcBad (hp : r.phase = .crc) (hi : r.idx = 3#3) (hc : shiftIn r.crcrx b ≠ crcFinal r.crcacc) :
      ByteCase b r ({ r with crcrx := shiftIn r.crcrx b }.raise .checksumMismatch) Events.emitErr
  | crcNext (hp : r.phase = .crc) (hi : r.idx ≠ 3#3) :
      ByteCase b r { r with crcrx := shiftIn r.crcrx b }.nextByte Events.none
  | inactive (hp : r.phase = .idle ∨ r.phase = .done) :
      ByteCase b r { r with perr := true } Events.emitPerr
  | ignored (hp : r.phase = .err) :
      ByteCase b r r Events.none

section Dispatch
variable {b : Byte} {s : State}
theorem execByte_sig (h : s.regs.phase = .sig) : execByte b s = byteInSig b s := by simp only [execByte, h]
theorem execByte_len (h : s.regs.phase = .len) : execByte b s = byteInLen b s := by simp only [execByte, h]
theorem execByte_type (h : s.regs.phase = .type) : execByte b s = byteInType b s := by simp only [execByte, h]
theorem execByte_data (h : s.regs.phase = .data) : execByte b s = byteInData b s := by simp only [execByte, h]
theorem execByte_crc (h : s.regs.phase = .crc) : execByte b s = byteInCrc b s := by simp only [execByte, h]
theorem execByte_idle (h : s.regs.phase = .idle) : execByte b s = s.protocolError := by simp only [execByte, h]
theorem execByte_done (h : s.regs.phase = .done) : execByte b s = s.protocolError := by simp only [execByte, h]
theorem execByte_err (h : s.regs.phase = .err) : execByte b s = s.noEffect := by simp only [execByte, h]
end Dispatch

/-- `BYTE` always answers a next state, and does one of the cases. -/
theorem execByte_case (b : Byte) (s : State) :
    ∃ r e, execByte b s = .next { s with regs := r, ev := e } ∧ ByteCase b s.regs r e := by
  cases hp : s.regs.phase with
  | sig =>
    rw [execByte_sig hp]; simp only [byteInSig]
    by_cases hb : b = sigRomAt s.regs.idx
    · rw [if_pos hb]
      by_cases hi : s.regs.idx = 7#3
      · rw [if_pos hi]; exact ⟨_, _, rfl, .sigLast hp hb hi⟩
      · rw [if_neg hi]; exact ⟨_, _, rfl, .sigNext hp hb hi⟩
    · rw [if_neg hb]; exact ⟨_, _, rfl, .sigBad hp hb⟩
  | len =>
    rw [execByte_len hp]; simp only [byteInLen]
    by_cases hi : s.regs.idx = 3#3
    · rw [if_pos hi]; exact ⟨_, _, rfl, .lenLast hp hi⟩
    · rw [if_neg hi]; exact ⟨_, _, rfl, .lenNext hp hi⟩
  | type =>
    rw [execByte_type hp]; simp only [byteInType]
    by_cases hi : s.regs.idx = 3#3
    · rw [if_pos hi]
      by_cases hr : s.regs.rem = 0#32
      · rw [if_pos hr]; exact ⟨_, _, rfl, .typeLastEmpty hp hi hr⟩
      · rw [if_neg hr]; exact ⟨_, _, rfl, .typeLast hp hi hr⟩
    · rw [if_neg hi]; exact ⟨_, _, rfl, .typeNext hp hi⟩
  | data =>
    rw [execByte_data hp]; simp only [byteInData]
    by_cases hr : s.regs.rem = 1#32
    · rw [if_pos hr]; exact ⟨_, _, rfl, .dataLast hp hr⟩
    · rw [if_neg hr]; exact ⟨_, _, rfl, .dataNext hp hr⟩
  | crc =>
    rw [execByte_crc hp]; simp only [byteInCrc]
    by_cases hi : s.regs.idx = 3#3
    · rw [if_pos hi]
      by_cases hc : shiftIn s.regs.crcrx b = crcFinal s.regs.crcacc
      · rw [if_pos hc]; exact ⟨_, _, rfl, .crcOk hp hi hc⟩
      · rw [if_neg hc]; exact ⟨_, _, rfl, .crcBad hp hi hc⟩
    · rw [if_neg hi]; exact ⟨_, _, rfl, .crcNext hp hi⟩
  | idle => exact ⟨_, _, execByte_idle hp, .inactive (.inl hp)⟩
  | done => exact ⟨_, _, execByte_done hp, .inactive (.inr hp)⟩
  | err => exact ⟨_, _, execByte_err hp, .ignored hp⟩

/-- The inversion form of `execByte_case`. -/
theorem execByte_inv {b : Byte} {s t : State} (h : execByte b s = .next t) :
    t.port = s.port ∧ ByteCase b s.regs t.regs t.ev := by
  obtain ⟨r, e, h1, hc⟩ := execByte_case b s
  rw [h1] at h
  cases h
  exact ⟨rfl, hc⟩

/-- Everything `END` can do to the registers `r`, with the event it emits: one case per line of R163. -/
inductive EndCase (r : Regs) : Regs → Events → Prop where
  | done (hp : r.phase = .len) (hi : r.idx = 0#3) : EndCase r { r with phase := .done } Events.emitDone
  | inLen (hp : r.phase = .len) (hi : r.idx ≠ 0#3) : EndCase r (r.raise .truncated) Events.emitErr
  | inFrame (hp : r.phase = .type ∨ r.phase = .data ∨ r.phase = .crc) : EndCase r (r.raise .truncated) Events.emitErr
  | inSig (hp : r.phase = .sig) : EndCase r (r.raise .badSignature) Events.emitErr
  | inactive (hp : r.phase = .idle ∨ r.phase = .done) : EndCase r { r with perr := true } Events.emitPerr
  | ignored (hp : r.phase = .err) : EndCase r r Events.none

section EndDispatch
variable {d : Byte} {s : State}
theorem execEndStream_len (h : s.regs.phase = .len) : execEndStream d s =
    if s.regs.idx = 0#3 then s.complete { s.regs with phase := .done } Events.emitDone else s.frameError s.regs .truncated := by
  simp only [execEndStream, h]
theorem execEndStream_inFrame (h : s.regs.phase = .type ∨ s.regs.phase = .data ∨ s.regs.phase = .crc) :
    execEndStream d s = s.frameError s.regs .truncated := by
  rcases h with h | h | h <;> simp only [execEndStream, h]
theorem execEndStream_sig (h : s.regs.phase = .sig) : execEndStream d s = s.frameError s.regs .badSignature := by
  simp only [execEndStream, h]
theorem execEndStream_inactive (h : s.regs.phase = .idle ∨ s.regs.phase = .done) :
    execEndStream d s = s.protocolError := by
  rcases h with h | h <;> simp only [execEndStream, h]
theorem execEndStream_err (h : s.regs.phase = .err) : execEndStream d s = s.noEffect := by
  simp only [execEndStream, h]
end EndDispatch

/-- `END` always answers a next state, and does one of the cases. -/
theorem execEndStream_case (d : Byte) (s : State) :
    ∃ r e, execEndStream d s = .next { s with regs := r, ev := e } ∧ EndCase s.regs r e := by
  cases hp : s.regs.phase with
  | len =>
    rw [execEndStream_len hp]
    by_cases hi : s.regs.idx = 0#3
    · rw [if_pos hi]; exact ⟨_, _, rfl, .done hp hi⟩
    · rw [if_neg hi]; exact ⟨_, _, rfl, .inLen hp hi⟩
  | type => exact ⟨_, _, execEndStream_inFrame (.inl hp), .inFrame (.inl hp)⟩
  | data => exact ⟨_, _, execEndStream_inFrame (.inr (.inl hp)), .inFrame (.inr (.inl hp))⟩
  | crc => exact ⟨_, _, execEndStream_inFrame (.inr (.inr hp)), .inFrame (.inr (.inr hp))⟩
  | sig => exact ⟨_, _, execEndStream_sig hp, .inSig hp⟩
  | idle => exact ⟨_, _, execEndStream_inactive (.inl hp), .inactive (.inl hp)⟩
  | done => exact ⟨_, _, execEndStream_inactive (.inr hp), .inactive (.inr hp)⟩
  | err => exact ⟨_, _, execEndStream_err hp, .ignored hp⟩

/-- The inversion form of `execEndStream_case`. -/
theorem execEndStream_inv {d : Byte} {s t : State} (h : execEndStream d s = .next t) :
    t.port = s.port ∧ EndCase s.regs t.regs t.ev := by
  obtain ⟨r, e, h1, hc⟩ := execEndStream_case d s
  rw [h1] at h
  cases h
  exact ⟨rfl, hc⟩

theorem execStart_legal {d : Byte} (h : startSpareBitsZero d = true) (s : State) :
    execStart d s = .next { s with regs := Regs.started (startSig d), ev := Events.none } := by
  simp only [execStart, h, if_true]; rfl

theorem execStart_spare {d : Byte} (h : startSpareBitsZero d = false) (s : State) :
    execStart d s = s.reservedWord := by
  simp [execStart, h]

end Sys2Proof.Machine
end

