-- ==== Sys2Proof/Laws/Crc.lean ====
section
/-! SUPPORT. The CRC unit as a linear, invertible update (R101, R107, R108). -/

namespace Sys2Proof.Machine

/-- The loop body is linear over xor (R108: xor, logical right shift by one, and the test of bit 0). -/
theorem crcShift_xor (a b : Word) : crcShift (a ^^^ b) = crcShift a ^^^ crcShift b := by
  unfold crcShift
  rw [BitVec.getLsbD_xor, BitVec.ushiftRight_xor_distrib]
  cases a.getLsbD 0 <;> cases b.getLsbD 0 <;> simp only [Bool.xor_false, Bool.xor_true, Bool.not_false, Bool.not_true, if_true] <;>
    apply BitVec.eq_of_getLsbD_eq <;> intro i _ <;> simp [Bool.xor_comm, Bool.xor_left_comm]

theorem crcShifts_xor (n : Nat) (a b : Word) : crcShifts n (a ^^^ b) = crcShifts n a ^^^ crcShifts n b := by
  induction n generalizing a b with
  | zero => rfl
  | succ n ih => simp only [crcShifts, crcShift_xor, ih]

/-- A pass with bit 0 clear is a plain shift. -/
theorem crcShift_of_bit0_clear {c : Word} (h : c.getLsbD 0 = false) : crcShift c = c >>> 1 := by
  simp only [crcShift, h]; rfl

/-- Bit 31 after a pass is bit 0 before it: the polynomial has bit 31 set and the shift clears it. -/
theorem crcShift_bit31 (c : Word) : (crcShift c).getLsbD 31 = c.getLsbD 0 := by
  unfold crcShift
  rcases h : c.getLsbD 0 with _ | _
  · simp
  · have hp : crcPoly.getLsbD 31 = true := by decide
    simp [hp]

theorem crcShift_injective {a b : Word} (h : crcShift a = crcShift b) : a = b := by
  have h0 : a.getLsbD 0 = b.getLsbD 0 := by rw [← crcShift_bit31 a, ← crcShift_bit31 b, h]
  have hs : a >>> 1 = b >>> 1 := by
    unfold crcShift at h
    rw [h0] at h
    split at h
    · exact BitVec.xor_left_inj _ |>.mp h
    · exact h
  apply BitVec.eq_of_getLsbD_eq
  intro i hi
  cases i with
  | zero => exact h0
  | succ i =>
    have := congrArg (fun v : Word => v.getLsbD i) hs
    simpa [BitVec.getLsbD_ushiftRight, Nat.add_comm] using this

theorem crcShifts_injective {n : Nat} {a b : Word} (h : crcShifts n a = crcShifts n b) : a = b := by
  induction n generalizing a b with
  | zero => exact h
  | succ n ih => exact crcShift_injective (ih h)

theorem crcUpd_injective_left {a c : Word} {b : Byte} (h : crcUpd a b = crcUpd c b) : a = c :=
  BitVec.xor_left_inj _ |>.mp (crcShifts_injective h)

theorem zext32_injective {b b' : Byte} (h : zext32 b = zext32 b') : b = b' := by
  have := congrArg (fun w : Word => w.setWidth 8) h
  simpa [zext32] using this

theorem crcUpd_injective_right {c : Word} {b b' : Byte} (h : crcUpd c b = crcUpd c b') : b = b' :=
  zext32_injective (BitVec.xor_right_inj _ |>.mp (crcShifts_injective h))

theorem crcFold_append (c : Word) (m m' : List Byte) : crcFold c (m ++ m') = crcFold (crcFold c m) m' :=
  List.foldl_append

theorem crcFold_cons (c : Word) (b : Byte) (m : List Byte) : crcFold c (b :: m) = crcFold (crcUpd c b) m := rfl

theorem crcFold_injective_left {a c : Word} {m : List Byte} (h : crcFold a m = crcFold c m) : a = c := by
  induction m generalizing a c with
  | nil => exact h
  | cons b m ih => exact crcUpd_injective_left (ih h)

theorem crcFinal_injective {a c : Word} (h : crcFinal a = crcFinal c) : a = c :=
  BitVec.xor_left_inj _ |>.mp h

theorem crcFinal_crcFinal (c : Word) : crcFinal (crcFinal c) = c := by
  simp [crcFinal]

end Sys2Proof.Machine
end

