-- ==== Sys2Proof/Laws/PerInstr.lean ====
section
/-! SUPPORT. Statements for all commands, one lemma per constructor of Instr. -/

namespace Sys2Proof.Laws

/-- The two fields of a command's word (R80): the opcode in bits 10:8 and the operand in bits 7:0. -/
def EncodeFields.Statement (i : Instr) : Prop :=
  opField (encode i) = i.opcode ∧ operandField (encode i) = i.operand

/-- The fields of a word put together from an opcode and an operand. -/
theorem fields_append (op : BitVec 3) (d : Byte) :
    opField (op ++ d) = op ∧ operandField (op ++ d) = d := by
  constructor
  · apply BitVec.eq_of_getLsbD_eq
    intro i hi
    have h : (op ++ d : BitVec (3 + 8)).getLsbD (8 + i) = op.getLsbD i := by
      rw [BitVec.getLsbD_append]; simp
    simpa [opField, hi] using h
  · apply BitVec.eq_of_getLsbD_eq
    intro i hi
    have h : (op ++ d : BitVec (3 + 8)).getLsbD i = d.getLsbD i := by
      rw [BitVec.getLsbD_append]; simp [hi]
    simpa [operandField, hi] using h

theorem EncodeFields.nop (d : Byte) : EncodeFields.Statement (.nop d) := fields_append _ _
theorem EncodeFields.start (d : Byte) : EncodeFields.Statement (.start d) := fields_append _ _
theorem EncodeFields.byte (b : Byte) : EncodeFields.Statement (.byte b) := fields_append _ _
theorem EncodeFields.endStream (d : Byte) : EncodeFields.Statement (.endStream d) := fields_append _ _

end Sys2Proof.Laws
end

