-- ==== Sys2Proof/Laws/Step.lean ====
section
/-! SUPPORT. What an edge can do, and how a run over several edges is put together. -/

namespace Sys2Proof.Machine

theorem step_nil {s : State} (h : s.port = []) : step s = s.afterEdge.idleEdge := by
  simp only [step, State.edgeAction, h]

theorem step_cons {s : State} {p : PortSample} {rest : List PortSample} (h : s.port = p :: rest) :
    step s = match p.action with
      | .reset => s.afterEdge.hardReset
      | .command w => runWord w s.afterEdge
      | .idle => s.afterEdge.idleEdge := by
  cases hp : p.action <;> simp only [step, State.edgeAction, h, hp]

theorem step_ofCommand {s : State} {w : CmdWord} {rest : List PortSample} (h : s.port = PortSample.ofCommand w :: rest) :
    step s = runWord w s.afterEdge := by
  rw [step_cons h]; rfl

theorem step_present (s : State) (w : CmdWord) : step (s.present w) = runWord w s := rfl

theorem runWord_command {w : CmdWord} {i : Instr} (h : decode w = .command i) (s : State) : runWord w s = exec i s := by
  simp only [runWord, h]

theorem runWord_reserved {w : CmdWord} {why : ReservedWord} (h : decode w = .reserved why) (s : State) :
    runWord w s = s.reservedWord := by
  simp only [runWord, h]

/-- Everything a command can do to the registers `r`, with the event it emits. -/
inductive CommandCase (r : Regs) : Instr → Regs → Events → Prop where
  | nop (d : Byte) : CommandCase r (.nop d) r Events.none
  | start (d : Byte) (hd : startSpareBitsZero d = true) :
      CommandCase r (.start d) (Regs.started (startSig d)) Events.none
  | startSpare (d : Byte) (hd : startSpareBitsZero d = false) :
      CommandCase r (.start d) { r with perr := true } Events.emitPerr
  | byte (b : Byte) (r' : Regs) (e : Events) (h : ByteCase b r r' e) : CommandCase r (.byte b) r' e
  | endStream (d : Byte) (r' : Regs) (e : Events) (h : EndCase r r' e) : CommandCase r (.endStream d) r' e

/-- Every command answers a next state, and does one of the cases. -/
theorem exec_case (i : Instr) (s : State) :
    ∃ r e, exec i s = .next { s with regs := r, ev := e } ∧ CommandCase s.regs i r e := by
  cases i with
  | nop d => exact ⟨_, _, rfl, .nop d⟩
  | start d =>
    cases hd : startSpareBitsZero d with
    | true => exact ⟨_, _, execStart_legal hd s, .start d hd⟩
    | false => exact ⟨_, _, execStart_spare hd s, .startSpare d hd⟩
  | byte b =>
    obtain ⟨r, e, h, hc⟩ := execByte_case b s
    exact ⟨r, e, h, .byte b r e hc⟩
  | endStream d =>
    obtain ⟨r, e, h, hc⟩ := execEndStream_case d s
    exact ⟨r, e, h, .endStream d r e hc⟩

/-- The inversion form of `exec_case`. -/
theorem exec_inv {i : Instr} {s t : State} (h : exec i s = .next t) :
    t.port = s.port ∧ CommandCase s.regs i t.regs t.ev := by
  obtain ⟨r, e, h1, hc⟩ := exec_case i s
  rw [h1] at h
  cases h
  exact ⟨rfl, hc⟩

/-- A case of `BYTE` is the only one for its byte and registers. -/
theorem ByteCase.unique {b : Byte} {r r1 r2 : Regs} {e1 e2 : Events} (h1 : ByteCase b r r1 e1) (h2 : ByteCase b r r2 e2) :
    r1 = r2 ∧ e1 = e2 := by
  cases h1 <;> cases h2 <;> first | exact ⟨rfl, rfl⟩ | simp_all

theorem EndCase.unique {r r1 r2 : Regs} {e1 e2 : Events} (h1 : EndCase r r1 e1) (h2 : EndCase r r2 e2) :
    r1 = r2 ∧ e1 = e2 := by
  cases h1 <;> cases h2 <;> first | exact ⟨rfl, rfl⟩ | (exfalso; cases hp : r.phase <;> simp_all)

theorem CommandCase.unique {r r1 r2 : Regs} {i : Instr} {e1 e2 : Events} (h1 : CommandCase r i r1 e1)
    (h2 : CommandCase r i r2 e2) : r1 = r2 ∧ e1 = e2 := by
  cases h1 with
  | nop d => cases h2; exact ⟨rfl, rfl⟩
  | start d hd =>
    cases h2 with
    | start _ _ => exact ⟨rfl, rfl⟩
    | startSpare _ hd' => rw [hd] at hd'; cases hd'
  | startSpare d hd =>
    cases h2 with
    | start _ hd' => rw [hd] at hd'; cases hd'
    | startSpare _ _ => exact ⟨rfl, rfl⟩
  | byte b r' e h => cases h2; exact h.unique ‹_›
  | endStream d r' e h => cases h2; exact h.unique ‹_›

/-- A command is executed on the registers alone: the event record before it and what the host presents later play no part. -/
theorem exec_local (i : Instr) (s : State) :
    ∃ r e, exec i s = .next { s with regs := r, ev := e } ∧
      ∀ s' : State, s'.regs = s.regs → exec i s' = .next { s' with regs := r, ev := e } := by
  obtain ⟨r, e, h, hc⟩ := exec_case i s
  refine ⟨r, e, h, fun s' hs => ?_⟩
  obtain ⟨r', e', h', hc'⟩ := exec_case i s'
  rw [hs] at hc'
  obtain ⟨hr, he⟩ := hc'.unique hc
  rw [h', hr, he]

theorem runWord_local (w : CmdWord) (s : State) :
    ∃ r e, runWord w s = .next { s with regs := r, ev := e } ∧
      ∀ s' : State, s'.regs = s.regs → runWord w s' = .next { s' with regs := r, ev := e } := by
  match hd : decode w with
  | .command i => simpa only [runWord_command hd] using exec_local i s
  | .reserved why =>
    simp only [runWord_reserved hd]
    exact ⟨_, _, rfl, fun s' h => by rw [← h]; rfl⟩

theorem runWord_port {w : CmdWord} {s t : State} (q : List PortSample) (h : runWord w s = .next t) :
    runWord w { s with port := q } = .next { t with port := q } := by
  obtain ⟨r, e, h1, h2⟩ := runWord_local w s
  rw [h1] at h
  cases h
  exact h2 { s with port := q } rfl

/-- Everything an edge can do to the registers `r`, with the event record it leaves, by the samples at the port. -/
inductive EdgeCase (r : Regs) : List PortSample → Regs → Events → Prop where
  | nothing : EdgeCase r [] r Events.none
  | reset (v : Bool) (w : CmdWord) (rest : List PortSample) : EdgeCase r (⟨false, v, w⟩ :: rest) Regs.reset Events.none
  | idle (w : CmdWord) (rest : List PortSample) : EdgeCase r (⟨true, false, w⟩ :: rest) r Events.none
  | reserved (w : CmdWord) (rest : List PortSample) (why : ReservedWord) (hd : decode w = .reserved why) :
      EdgeCase r (⟨true, true, w⟩ :: rest) { r with perr := true } Events.emitPerr
  | command (w : CmdWord) (rest : List PortSample) (i : Instr) (r' : Regs) (e : Events) (hd : decode w = .command i)
      (h : CommandCase r i r' e) : EdgeCase r (⟨true, true, w⟩ :: rest) r' e

/-- Every edge answers a next state, and does one of the cases. -/
theorem step_case (s : State) :
    ∃ r e, step s = .next { regs := r, ev := e, port := s.port.tail } ∧ EdgeCase s.regs s.port r e := by
  match hp : s.port with
  | [] => exact ⟨_, _, by rw [step_nil hp, State.afterEdge, hp]; rfl, .nothing⟩
  | ⟨false, v, w⟩ :: rest => exact ⟨_, _, by rw [step_cons hp, State.afterEdge, hp]; rfl, .reset v w rest⟩
  | ⟨true, false, w⟩ :: rest => exact ⟨_, _, by rw [step_cons hp, State.afterEdge, hp]; rfl, .idle w rest⟩
  | ⟨true, true, w⟩ :: rest =>
    rw [step_ofCommand (w := w) hp]
    match hd : decode w with
    | .command i =>
      obtain ⟨r, e, h, hc⟩ := exec_case i s.afterEdge
      exact ⟨r, e, by rw [runWord_command hd, h, State.afterEdge, hp], .command w rest i r e hd hc⟩
    | .reserved why => exact ⟨_, _, by rw [runWord_reserved hd, State.afterEdge, hp]; rfl, .reserved w rest why hd⟩

/-- The inversion form of `step_case`. -/
theorem step_inv {s t : State} (h : step s = .next t) :
    t.port = s.port.tail ∧ EdgeCase s.regs s.port t.regs t.ev := by
  obtain ⟨r, e, h1, hc⟩ := step_case s
  rw [h1] at h
  cases h
  exact ⟨rfl, hc⟩

theorem runEdges_zero (s : State) : runEdges 0 s = some (s, []) := rfl

theorem runEdges_succ {s t : State} (n : Nat) (h : step s = .next t) :
    runEdges (n + 1) s = (runEdges n t).map fun r => (r.1, t.ev :: r.2) := by
  simp only [runEdges, h, nextOf]
  cases runEdges n t <;> rfl

theorem runWords_nil (s : State) : runWords [] s = some (s, []) := by
  simp [runWords, State.presentAll, runEdges]

/-- One word first, then the rest from the state it leaves. -/
theorem runWords_cons {s t : State} {w : CmdWord} (ws : List CmdWord) (h : runWord w s = .next t) (hp : t.port = s.port) :
    runWords (w :: ws) s = (runWords ws t).map fun r => (r.1, t.ev :: r.2) := by
  have hport := fun q => runWord_port q h
  have hstep : step (s.presentAll (w :: ws)) = .next (t.presentAll ws) := by
    rw [step_ofCommand (w := w) (rest := ws.map PortSample.ofCommand ++ s.port) rfl]
    have := hport (ws.map PortSample.ofCommand ++ s.port)
    simpa [State.presentAll, State.afterEdge, hp] using this
  simp only [runWords, List.length_cons]
  rw [runEdges_succ _ hstep]
  rfl

end Sys2Proof.Machine
end

