-- ==== Sys2Proof/Laws/Stream.lean ====
section
/-! SUPPORT. Runs over several command words: how they are put together, and the walk over each field of a frame (R92, R136 to
R140). -/

namespace Sys2Proof.Machine

theorem decode_encode_byte (b : Byte) : decode (encode (.byte b)) = .command (.byte b) := by
  have h1 : opField (encode (.byte b)) = 2#3 := BitVec.extractLsb'_append_eq_left
  have h2 : operandField (encode (.byte b)) = b := BitVec.extractLsb'_append_eq_right
  simp [decode, h1, h2]

theorem decode_endWord : decode endWord = .command (.endStream 0x00#8) := rfl

theorem decode_startWord (sig : Bool) : decode (startWord sig) = .command (.start (if sig then 0x01#8 else 0x00#8)) := by
  cases sig <;> rfl

/-- Two runs of words in a row. -/
theorem runWords_append {xs ys : List CmdWord} {s t u : State} {es fs : List Events}
    (h1 : runWords xs s = some (t, es)) (h2 : runWords ys t = some (u, fs)) :
    runWords (xs ++ ys) s = some (u, es ++ fs) := by
  induction xs generalizing s es with
  | nil =>
    rw [runWords_nil] at h1
    cases h1
    exact h2
  | cons w xs ih =>
    obtain ⟨r, e, h, -⟩ := runWord_local w s
    rw [runWords_cons xs h rfl] at h1
    rw [List.cons_append, runWords_cons (xs ++ ys) h rfl]
    cases hx : runWords xs { s with regs := r, ev := e } with
    | none => rw [hx] at h1; cases h1
    | some p =>
      rw [hx] at h1
      cases h1
      rw [ih hx]
      rfl

/-- One `BYTE`, then the rest of the stream. -/
theorem runWords_byte {b : Byte} {m : List Byte} {s t u : State} {es : List Events} (h : execByte b s = .next t)
    (h2 : runWords (byteWords m) t = some (u, es)) :
    runWords (byteWords (b :: m)) s = some (u, t.ev :: es) := by
  have hw : runWord (encode (.byte b)) s = .next t := by
    rw [runWord_command (decode_encode_byte b)]; exact h
  have hx := runWords_cons (byteWords m) hw (execByte_inv h).1
  rw [h2] at hx
  exact hx

theorem runWords_singleton {w : CmdWord} {s t : State} (h : runWord w s = .next t) (hp : t.port = s.port) :
    runWords [w] s = some (t, [t.ev]) := by
  rw [runWords_cons [] h hp, runWords_nil]; rfl

theorem runWords_start (sig : Bool) (s : State) :
    runWords [startWord sig] s = some ({ s with regs := Regs.started sig, ev := Events.none }, [Events.none]) := by
  refine runWords_singleton (t := { s with regs := Regs.started sig, ev := Events.none }) ?_ rfl
  rw [runWord_command (decode_startWord sig)]
  cases sig <;> rfl

theorem byteWords_append (m m' : List Byte) : byteWords (m ++ m') = byteWords m ++ byteWords m' :=
  List.map_append

/-- Two parts of a stream in a row. -/
theorem runBytes_append {m m' : List Byte} {s t u : State} {es fs : List Events}
    (h1 : runWords (byteWords m) s = some (t, es)) (h2 : runWords (byteWords m') t = some (u, fs)) :
    runWords (byteWords (m ++ m')) s = some (u, es ++ fs) := by
  rw [byteWords_append]; exact runWords_append h1 h2

/-- The state after `BYTE b`; `BYTE` always has one (execByte_case). -/
def afterByte (b : Byte) (s : State) : State := (nextOf (execByte b s)).getD s

/-- The state after the bytes `m`. -/
def afterBytes : List Byte → State → State
  | [], s => s
  | b :: m, s => afterBytes m (afterByte b s)

/-- The event records of the bytes `m`. -/
def eventsOfBytes : List Byte → State → List Events
  | [], _ => []
  | b :: m, s => (afterByte b s).ev :: eventsOfBytes m (afterByte b s)

theorem execByte_afterByte (b : Byte) (s : State) : execByte b s = .next (afterByte b s) := by
  obtain ⟨r, e, h, -⟩ := execByte_case b s
  rw [afterByte, h]; rfl

theorem runWords_bytes (m : List Byte) (s : State) :
    runWords (byteWords m) s = some (afterBytes m s, eventsOfBytes m s) := by
  induction m generalizing s with
  | nil => exact runWords_nil s
  | cons b m ih => exact runWords_byte (execByte_afterByte b s) (ih _)

/-- The right byte in SIG (R136). -/
theorem afterByte_sig {s : State} (hp : s.regs.phase = .sig) :
    afterByte (sigRomAt s.regs.idx) s =
      { s with regs := if s.regs.idx = 7#3 then s.regs.goto .len 0#3 else s.regs.nextByte, ev := Events.none } := by
  rw [afterByte, execByte_sig hp]
  simp only [byteInSig, if_true]
  split <;> rfl

/-- The eight bytes of the signature, from the start of SIG (R90, R136). -/
theorem run_signature {s : State} (hp : s.regs.phase = .sig) (hi : s.regs.idx = 0#3) :
    runWords (byteWords sigRom) s =
      some ({ s with regs := s.regs.goto .len 0#3, ev := Events.none }, List.replicate 8 Events.none) := by
  obtain ⟨⟨p, i, sm, l, t, m, c, x, n, er, ep, pe⟩, ev, port⟩ := s
  dsimp only at hp hi
  subst hp hi
  have h (j : Idx) (e : Events) := afterByte_sig (s := ⟨⟨.sig, j, sm, l, t, m, c, x, n, er, ep, pe⟩, e, port⟩) rfl
  have hrom : sigRom = [sigRomAt 0#3, sigRomAt 1#3, sigRomAt 2#3, sigRomAt 3#3, sigRomAt 4#3, sigRomAt 5#3, sigRomAt 6#3,
    sigRomAt 7#3] := rfl
  rw [runWords_bytes, hrom]
  simp [afterBytes, eventsOfBytes, h, Regs.nextByte, Regs.goto]

/-- The four bytes of the length field, from the frame boundary (R137). -/
theorem run_length {s : State} (l : Word) (hp : s.regs.phase = .len) (hi : s.regs.idx = 0#3) :
    runWords (byteWords (unfold4 l)) s =
      some ({ s with regs := { s.regs with phase := .type, idx := 0#3, len := l, rem := l, crcacc := crcInit }
                     ev := Events.none }, List.replicate 4 Events.none) := by
  obtain ⟨⟨p, i, sm, l0, t, m, c, x, n, er, ep, pe⟩, ev, port⟩ := s
  dsimp only at hp hi
  subst hp hi
  have h : afterBytes (unfold4 l) ⟨⟨.len, 0#3, sm, l0, t, m, c, x, n, er, ep, pe⟩, ev, port⟩ =
      (let v := shiftIn (shiftIn (shiftIn (shiftIn l0 (byte0 l)) (byte1 l)) (byte2 l)) (byte3 l)
       ⟨⟨.type, 0#3, sm, v, t, v, crcInit, x, n, er, ep, pe⟩, Events.none, port⟩) := rfl
  rw [runWords_bytes, h, shiftIn_bytes]; rfl

/-- The four bytes of the type field (R138). -/
theorem run_type {s : State} (t : Word) (hp : s.regs.phase = .type) (hi : s.regs.idx = 0#3) :
    runWords (byteWords (unfold4 t)) s =
      some ({ s with regs := { s.regs with phase := if s.regs.rem = 0#32 then .crc else .data, idx := 0#3, type := t
                                           crcacc := crcFold s.regs.crcacc (unfold4 t) }
                     ev := Events.emitHdr }, List.replicate 3 Events.none ++ [Events.emitHdr]) := by
  obtain ⟨⟨p, i, sm, l, t0, m, c, x, n, er, ep, pe⟩, ev, port⟩ := s
  dsimp only at hp hi
  subst hp hi
  have h : afterBytes (unfold4 t) ⟨⟨.type, 0#3, sm, l, t0, m, c, x, n, er, ep, pe⟩, ev, port⟩ =
      (let v := shiftIn (shiftIn (shiftIn (shiftIn t0 (byte0 t)) (byte1 t)) (byte2 t)) (byte3 t)
       ⟨⟨if m = 0#32 then .crc else .data, 0#3, sm, l, v, m, crcFold c (unfold4 t), x, n, er, ep, pe⟩,
         Events.emitHdr, port⟩) := rfl
  rw [runWords_bytes, h, shiftIn_bytes]; rfl

/-- The payload (R139). -/
theorem run_payload {s : State} (m : List Byte) (hp : s.regs.phase = .data) (hi : s.regs.idx = 0#3)
    (hm : m ≠ []) (hr : s.regs.rem = BitVec.ofNat 32 m.length) (hl : m.length < 2 ^ 32) :
    ∃ e, runWords (byteWords m) s =
      some ({ s with regs := { s.regs with phase := .crc, rem := 0#32, crcacc := crcFold s.regs.crcacc m }
                     ev := e }, payloadEvents m) := by
  induction m generalizing s with
  | nil => exact absurd rfl hm
  | cons b m ih =>
    obtain ⟨⟨p, i, sm, l, t, r, c, x, n, er, ep, pe⟩, ev, port⟩ := s
    dsimp only at hp hi hr
    subst hp hi hr
    cases m with
    | nil =>
      refine ⟨Events.emitPayload b true, ?_⟩
      rw [show BitVec.ofNat 32 [b].length = 1#32 from rfl, runWords_bytes]
      have h : afterByte b ⟨⟨.data, 0#3, sm, l, t, 1#32, c, x, n, er, ep, pe⟩, ev, port⟩ =
          ⟨⟨.crc, 0#3, sm, l, t, 0#32, crcUpd c b, x, n, er, ep, pe⟩, Events.emitPayload b true, port⟩ := by
        simp only [afterByte, execByte_data, byteInData, if_true, BitVec.sub_self]; rfl
      simp only [afterBytes, eventsOfBytes, h]; rfl
    | cons b' m =>
      have hne : BitVec.ofNat 32 ((b :: b' :: m).length) ≠ 1#32 := by
        intro h
        have := congrArg BitVec.toNat h
        simp only [BitVec.toNat_ofNat, List.length_cons] at this hl
        omega
      have hsub : BitVec.ofNat 32 ((b :: b' :: m).length) - 1#32 = BitVec.ofNat 32 ((b' :: m).length) := by
        simp only [List.length_cons]
        bv_omega
      obtain ⟨e, h⟩ := ih (s := ⟨⟨.data, 0#3, sm, l, t, BitVec.ofNat 32 ((b' :: m).length), crcUpd c b, x, n, er, ep, pe⟩,
        Events.emitPayload b false, port⟩) rfl rfl (by simp) rfl (by simp only [List.length_cons] at hl ⊢; omega)
      refine ⟨e, ?_⟩
      refine runWords_byte ?_ h
      rw [execByte_data rfl]
      simp only [byteInData, if_neg hne, hsub]
      rfl

/-- The payload (R139) where there is one, and the walk over no bytes where there is none. -/
theorem run_payload' {s : State} (m : List Byte) (hi : s.regs.idx = 0#3)
    (hp : s.regs.phase = if s.regs.rem = 0#32 then .crc else .data)
    (hr : s.regs.rem = BitVec.ofNat 32 m.length) (hl : m.length < 2 ^ 32) :
    ∃ e, runWords (byteWords m) s =
      some ({ s with regs := { s.regs with phase := .crc, rem := 0#32, crcacc := crcFold s.regs.crcacc m }
                     ev := e }, payloadEvents m) := by
  match m with
  | [] =>
    have h0 : s.regs.rem = 0#32 := hr
    rw [if_pos h0] at hp
    obtain ⟨⟨p, i, sm, l, t, r, c, x, n, er, ep, pe⟩, ev, port⟩ := s
    dsimp only at hp hi h0
    subst hp hi h0
    exact ⟨_, runWords_nil _⟩
  | b :: m =>
    have h0 : s.regs.rem ≠ 0#32 := by
      rw [hr]; intro h
      have := congrArg BitVec.toNat h
      simp only [BitVec.toNat_ofNat, List.length_cons] at this hl
      omega
    rw [if_neg h0] at hp
    exact run_payload _ hp hi (by simp) hr hl

/-- The four bytes of the checksum field (R140). -/
theorem run_checksum {s : State} (x : Word) (hp : s.regs.phase = .crc) (hi : s.regs.idx = 0#3) :
    runWords (byteWords (unfold4 x)) s =
      if x = crcFinal s.regs.crcacc then
        some ({ s with regs := { s.regs with phase := .len, idx := 0#3, crcrx := x, nchunk := satInc32 s.regs.nchunk }
                       ev := Events.emitOk }, List.replicate 3 Events.none ++ [Events.emitOk])
      else
        some ({ s with regs := { s.regs with phase := .err, idx := 3#3, crcrx := x, err := .checksumMismatch, ephase := .crc }
                       ev := Events.emitErr }, List.replicate 3 Events.none ++ [Events.emitErr]) := by
  obtain ⟨⟨p, i, sm, l, t, m, c, x0, n, er, ep, pe⟩, ev, port⟩ := s
  dsimp only at hp hi
  subst hp hi
  have h : afterBytes (unfold4 x) ⟨⟨.crc, 0#3, sm, l, t, m, c, x0, n, er, ep, pe⟩, ev, port⟩ =
      afterByte (byte3 x) ⟨⟨.crc, 3#3, sm, l, t, m, c, shiftIn (shiftIn (shiftIn x0 (byte0 x)) (byte1 x)) (byte2 x), n,
        er, ep, pe⟩, Events.none, port⟩ := rfl
  have he : eventsOfBytes (unfold4 x) ⟨⟨.crc, 0#3, sm, l, t, m, c, x0, n, er, ep, pe⟩, ev, port⟩ =
      List.replicate 3 Events.none ++ [(afterByte (byte3 x) ⟨⟨.crc, 3#3, sm, l, t, m, c,
        shiftIn (shiftIn (shiftIn x0 (byte0 x)) (byte1 x)) (byte2 x), n, er, ep, pe⟩, Events.none, port⟩).ev] := rfl
  rw [runWords_bytes, h, he]
  simp only [afterByte, execByte_crc, byteInCrc, shiftIn_bytes]
  by_cases hx : x = crcFinal c
  · simp only [if_pos hx]; rfl
  · simp only [if_neg hx]; rfl

/-- In ERR every `BYTE` is consumed and discarded (R142). -/
theorem run_discard {s : State} (m : List Byte) (hp : s.regs.phase = .err) (he : s.ev = Events.none) :
    runWords (byteWords m) s = some (s, List.replicate m.length Events.none) := by
  induction m with
  | nil => exact runWords_nil s
  | cons b m ih =>
    have hb : execByte b s = .next s := by
      rw [execByte_err hp, State.noEffect, State.complete, ← he]
    have := runWords_byte hb ih
    rw [he] at this
    exact this

/-- `END` in ERR ends nothing (R163). -/
theorem runWords_end {s t : State} (h : execEndStream 0x00#8 s = .next t) : runWords [endWord] s = some (t, [t.ev]) :=
  runWords_singleton (by rw [runWord_command decode_endWord]; exact h) (execEndStream_inv h).1

/-- The saturating count of validated chunks (R9, R30). -/
theorem satInc32_nchunkOf (k : Nat) : satInc32 (nchunkOf k) = nchunkOf (k + 1) := by
  unfold satInc32 nchunkOf
  by_cases h : k < 2 ^ 32 - 1
  · have h1 : min k (2 ^ 32 - 1) = k := by omega
    have h2 : min (k + 1) (2 ^ 32 - 1) = k + 1 := by omega
    rw [h1, h2, if_neg]
    · bv_omega
    · intro hk
      have := congrArg BitVec.toNat hk
      simp only [BitVec.toNat_ofNat] at this
      omega
  · have h1 : min k (2 ^ 32 - 1) = 2 ^ 32 - 1 := by omega
    have h2 : min (k + 1) (2 ^ 32 - 1) = 2 ^ 32 - 1 := by omega
    rw [h1, h2, if_pos]
    rfl

end Sys2Proof.Machine
end

