-- ==== Sys2Proof/Tests/Slice0.lean ====
section
/-! SUPPORT. Tests whose expected values stand in spec/95_test_vectors.md (named by their number), and a witness for every
statement of Certificates/Slice0/Obligations.lean that has hypotheses: a concrete state and operands that meet them. -/

namespace Sys2Proof.Tests

open Sys2Proof.Machine

/-! ### States of the tests -/

/-- The reset registers at another parse position. -/
def regsIn (p : Phase) (i : Idx) : Regs := { Regs.reset with phase := p, idx := i }

/-- A state with the registers `r` and nothing presented. -/
def stateOf (r : Regs) : State := { State.reset with regs := r }

/-- (TYPE, IDX 3) of vector B7, with `m` in LEN and REM. -/
def typeLast (m : Word) : Regs :=
  { regsIn .type 3 with len := m, rem := m, type := 0x00527553, crcacc := 0xCFAC51CE }

/-- (DATA) of vector B9 and B10: REM, CRCACC. -/
def inData (m c : Word) : Regs := { regsIn .data 0 with len := 42, rem := m, type := 0x52755374, crcacc := c }

/-- (CRC, IDX 3) of vectors B12 to B14, with NCHUNK `n`. -/
def crcLast (n : Word) : Regs :=
  { regsIn .crc 3 with len := 42, type := 0x52755374, crcacc := 0x542E27B1, crcrx := 0x00ABD1D8, nchunk := n }

/-- A parse in ERR after a checksum mismatch. -/
def mismatched : Regs :=
  { regsIn .err 3 with len := 42, type := 0x52755374, crcacc := 0x542E27B1, crcrx := 0xABD1D84F, err := .checksumMismatch,
                       ephase := .crc }

/-- The state after the words `ws` from reset, and the events. -/
def afterReset (ws : List CmdWord) : Option (State × List Events) := runWords ws State.reset

/-! ### Well-formedness -/

theorem test_wellFormed_refuses_start_spare_bits : Instr.wellFormed (.start 0x02) = false := by decide
theorem test_wellFormed_refuses_start_top_bit : Instr.wellFormed (.start 0x81) = false := by decide
theorem test_wellFormed_start : Instr.wellFormed (.start 0x01) = true := by decide
theorem test_wellFormed_any_operand : [Instr.nop 0xFF, .byte 0xFF, .endStream 0xA5].all Instr.wellFormed = true := by decide

/-! ### Decoding (W1 to W12) -/

theorem test_decode_nop : decode 0b000_11111111#11 = .command (.nop 0xFF) := by decide
theorem test_decode_start : decode 0b001_00000001#11 = .command (.start 0x01) := by decide
theorem test_decode_byte : decode 0b010_11111111#11 = .command (.byte 0xFF) := by decide
theorem test_decode_end : decode 0b011_10100101#11 = .command (.endStream 0xA5) := by decide
theorem test_decode_start_spare : decode 0b001_00000010#11 = .reserved (.startOperand 0x02) := by decide
theorem test_decode_op7 : decode 0b111_11111111#11 = .reserved (.opcode 7) := by decide
theorem test_decodeTableWord : decodeTableWord 16 0x289 = some (.byte 0x89) := by decide
theorem test_decodeTableWord_reserved : decodeTableWord 16 0x555 = none := by decide
theorem test_encode_byte : encode (.byte 0x89) = 0x289#11 := by decide
theorem test_withFetchWord : nextOf (step (State.reset.withFetchWord 16 0x101)) = some (stateOf (Regs.started true)) := by
  decide

/-! ### The functions -/

/-- X20: the first type byte of "RuSt". -/
theorem test_crcUpd : crcUpd 0xFFFFFFFF 0x52 = 0xA89820AA := by decide
set_option maxRecDepth 20000 in
/-- X8: the initial value is not 0. -/
theorem test_crc32_zeros : crc32 [0, 0, 0, 0] = 0x2144DF1C := by decide
set_option maxRecDepth 20000 in
/-- X5. -/
theorem test_crc32_abc : crc32 [0x61, 0x62, 0x63] = 0x352441C2 := by decide
/-- T5 and T7: just outside the letters. -/
theorem test_tflags_edges : tflags 0x40415A5B = 0x00000007 ∧ tflags 0x60617A7B = 0x00000008 := by decide
/-- T6: the ends of the ranges are letters. -/
theorem test_tflags_letters : tflags 0x41615A7A = 0x0000003D := by decide
/-- V3: every field of STATUS. -/
theorem test_status : Regs.status { regsIn .err 3 with sigm := true, perr := true, err := .checksumMismatch, ephase := .crc } =
    0x000017DF := by decide
/-- V1 and V4. -/
theorem test_reset_reads : State.reset.rdData 7 = 0x00000007 ∧ State.reset.rdData 15 = 0 := by decide

/-! ### Steps -/

/-- K1, in a frame. -/
theorem test_nop : nextOf (exec (.nop 0xFF) (stateOf (inData 1 0))) = some (stateOf (inData 1 0)) := by decide
/-- K4: a frame is abandoned. -/
theorem test_start_1 : nextOf (exec (.start 0x01) (stateOf { inData 1 7 with perr := true, crcrx := 9 })) =
    some (stateOf { regsIn .sig 0 with sigm := true }) := by decide
/-- K5: an error is cleared. -/
theorem test_start_0 : nextOf (exec (.start 0x00) (stateOf mismatched)) = some (stateOf (regsIn .len 0)) := by decide
/-- K6. -/
theorem test_end_boundary : nextOf (exec (.endStream 0) (stateOf { regsIn .len 0 with nchunk := 2 })) =
    some { stateOf { regsIn .done 0 with nchunk := 2 } with ev := Events.emitDone } := by decide
/-- E3: END inside the length field. -/
theorem test_end_in_len : (nextOf (exec (.endStream 0) (stateOf (regsIn .len 2)))).map (fun t => t.rdData 0) =
    some 0x00000A17 := by decide
/-- B2. -/
theorem test_byte_sig_last : nextOf (exec (.byte 0x0A) (stateOf (regsIn .sig 7))) = some (stateOf (regsIn .len 0)) := by decide
/-- B3. -/
theorem test_byte_sig_bad : nextOf (exec (.byte 0x48) (stateOf (regsIn .sig 3))) =
    some { stateOf { regsIn .err 3 with err := .badSignature, ephase := .sig } with ev := Events.emitErr } := by decide
/-- B4. -/
theorem test_byte_len : nextOf (exec (.byte 0x00) (stateOf { regsIn .len 0 with len := 0x0000002A })) =
    some (stateOf { regsIn .len 1 with len := 0x00002A00 }) := by decide
/-- B6: the largest length. -/
theorem test_byte_len_last : nextOf (exec (.byte 0xFF) (stateOf { regsIn .len 3 with len := 0x00FFFFFF, crcacc := 5 })) =
    some (stateOf { regsIn .type 0 with len := 0xFFFFFFFF, rem := 0xFFFFFFFF }) := by decide
/-- B7. -/
theorem test_byte_type_last : nextOf (exec (.byte 0x74) (stateOf (typeLast 42))) =
    some { stateOf (inData 42 0x2B7BF6C3) with ev := Events.emitHdr } := by decide
/-- B8: an empty payload. -/
theorem test_byte_type_empty : (nextOf (exec (.byte 0x44)
    (stateOf { regsIn .type 3 with type := 0x0049454E, crcacc := 0x639F4775 }))).map State.regs =
    some { regsIn .crc 0 with type := 0x49454E44, crcacc := 0x51BD9F7D } := by decide
/-- B9. -/
theorem test_byte_data : nextOf (exec (.byte 0x54) (stateOf (inData 42 0x2B7BF6C3))) =
    some { stateOf (inData 41 0x6E407D11) with ev := Events.emitPayload 0x54 false } := by decide
/-- B10. -/
theorem test_byte_data_last : nextOf (exec (.byte 0x21) (stateOf (inData 1 0xF07098D7))) =
    some { stateOf { inData 0 0x542E27B1 with phase := .crc } with ev := Events.emitPayload 0x21 true } := by decide
/-- B12. -/
theorem test_byte_crc_ok : nextOf (exec (.byte 0x4E) (stateOf (crcLast 0))) =
    some { stateOf { crcLast 1 with phase := .len, idx := 0, crcrx := 0xABD1D84E } with ev := Events.emitOk } := by decide
/-- B13. -/
theorem test_byte_crc_bad : nextOf (exec (.byte 0x4F) (stateOf (crcLast 0))) =
    some { stateOf mismatched with ev := Events.emitErr } := by decide
/-- B14: the count saturates. -/
theorem test_nchunk_saturates : (nextOf (exec (.byte 0x4E) (stateOf (crcLast 0xFFFFFFFF)))).map (fun t => t.regs.nchunk) =
    some 0xFFFFFFFF := by decide
/-- B15. -/
theorem test_byte_idle : nextOf (exec (.byte 0x41) State.reset) =
    some { stateOf { Regs.reset with perr := true } with ev := Events.emitPerr } := by decide
/-- K11: a reserved word in a frame. -/
theorem test_reserved : nextOf (step ((stateOf (inData 1 0)).present 0x555)) =
    some { stateOf { inData 1 0 with perr := true } with ev := Events.emitPerr } := by decide
/-- The reset pin goes before the command (R44, R200). -/
theorem test_reset_first : nextOf (step { stateOf mismatched with port := [⟨false, true, 0x100⟩] }) = some State.reset := by
  decide
/-- V5: an old length moving out. -/
theorem test_partial_field : shiftIn (shiftIn 0x0000002A 0x00) 0x00 = 0x002A0000 := by decide

/-! ### Witnesses: decoding -/

theorem witness_DecodeFollowsOpcodeMap :
    (0x02#8 ≠ 0x00#8 ∧ 0x02#8 ≠ 0x01#8) ∧ (4#3 ≤ 4#3 ∧ 4#3 ≤ 7#3) ∧ decode (1#3 ++ 0x01#8) = .command (.start 0x01) ∧
    decode (4#3 ++ 0x00#8) = .reserved (.opcode 4) := by decide
theorem witness_DecodeEncodeAgree :
    Instr.wellFormed (.start 0x01) = true ∧ Instr.wellFormed (.endStream 0xFF) = true ∧
    decode 0x101#11 = .command (.start 0x01) := by decide
theorem witness_OpcodeTableMatchesDecoder :
    decode 0x3A5#11 = .command (.endStream 0xA5) ∧ decode 0x1FE#11 = .reserved (.startOperand 0xFE) := by decide

/-! ### Witnesses: the clock edge -/

theorem witness_StepRunsDecodedCommand :
    (State.reset.present 0x289).port = PortSample.ofCommand 0x289 :: [] ∧ decode 0x289#11 = .command (.byte 0x89) ∧
    Instr.wellFormed (.byte 0x89) = true ∧ (11 : Nat) ≤ 11 := by decide
theorem witness_ReservedWordIsProtocolError :
    (State.reset.present 0x400).port = PortSample.ofCommand 0x400 :: [] ∧ BitVec.getLsbD 0x400#11 10 = true ∧
    (BitVec.extractLsb' 8 3 0x102#11 = 1#3 ∧ BitVec.extractLsb' 1 7 0x102#11 ≠ 0#7) := by decide
theorem witness_ResetEdgeGivesResetState :
    ({ stateOf mismatched with port := [⟨false, true, 0x289⟩] } : State).port = ⟨false, true, 0x289⟩ :: [] ∧
    (stateOf mismatched).port = [] := by decide
theorem witness_IdleEdgeKeepsRegisters :
    ({ stateOf mismatched with port := [⟨true, false, 0x289⟩] } : State).port = ⟨true, false, 0x289⟩ :: [] := by decide
theorem witness_ResetStateReads : (0#4 ≠ 7#4) ∧ (6#4 ≠ 7#4) ∧ (8#4 ≠ 7#4) ∧ 15#4 ≠ 7#4 := by decide

/-! ### Witnesses: the commands -/

theorem witness_StartReinitialises :
    exec (.start 0x01#8) State.reset = .next (stateOf (Regs.started true)) ∧
    exec (.start 0x00#8) State.reset = .next (stateOf (Regs.started false)) := ⟨rfl, rfl⟩
theorem witness_StartWithSpareBitsIsProtocolError : BitVec.extractLsb' 1 7 0x02#8 ≠ 0#7 := by decide
theorem witness_EndStreamByPhase :
    ((regsIn .len 0).phase = .len ∧ (regsIn .len 0).idx = 0#3) ∧
    ((regsIn .len 1).phase = .len ∧ (regsIn .len 1).idx ≠ 0#3) ∧ (typeLast 0).phase = .type ∧ (inData 1 0).phase = .data ∧
    (crcLast 0).phase = .crc ∧ (regsIn .sig 7).phase = .sig ∧ Regs.reset.phase = .idle ∧ (regsIn .done 0).phase = .done ∧
    mismatched.phase = .err := by decide
theorem witness_ByteInSig_match : (stateOf (regsIn .sig 6)).regs.phase = .sig ∧ 6 < 7 ∧
    (stateOf (regsIn .sig 6)).regs.idx = BitVec.ofNat 3 6 ∧
    (0x1A#8 : Byte) = [0x89#8, 0x50#8, 0x4E#8, 0x47#8, 0x0D#8, 0x0A#8, 0x1A#8, 0x0A#8].getD 6 0x00#8 := by decide
theorem witness_ByteInSig_last : (stateOf (regsIn .sig 7)).regs.phase = .sig ∧ 7 < 8 ∧
    (stateOf (regsIn .sig 7)).regs.idx = BitVec.ofNat 3 7 ∧
    (0x0A#8 : Byte) = [0x89#8, 0x50#8, 0x4E#8, 0x47#8, 0x0D#8, 0x0A#8, 0x1A#8, 0x0A#8].getD 7 0x00#8 := by decide
theorem witness_ByteInSig_bad : (stateOf (regsIn .sig 0)).regs.phase = .sig ∧ 0 < 8 ∧
    (stateOf (regsIn .sig 0)).regs.idx = BitVec.ofNat 3 0 ∧
    (0x88#8 : Byte) ≠ [0x89#8, 0x50#8, 0x4E#8, 0x47#8, 0x0D#8, 0x0A#8, 0x1A#8, 0x0A#8].getD 0 0x00#8 := by decide
theorem witness_ByteInLen : ((regsIn .len 2).phase = .len ∧ (regsIn .len 2).idx < 3#3) ∧
    ((regsIn .len 3).phase = .len ∧ (regsIn .len 3).idx = 3#3) := by decide
theorem witness_ByteInType : ((regsIn .type 2).phase = .type ∧ (regsIn .type 2).idx < 3#3) ∧
    ((typeLast 0).phase = .type ∧ (typeLast 0).idx = 3#3) := by decide
theorem witness_ByteInData : ((inData 2 0).phase = .data ∧ (inData 2 0).idx = 0#3 ∧ 1#32 < (inData 2 0).rem) ∧
    ((inData 1 0).phase = .data ∧ (inData 1 0).idx = 0#3 ∧ (inData 1 0).rem = 1#32) := by decide
theorem witness_ByteInCrc_next : (regsIn .crc 2).phase = .crc ∧ (regsIn .crc 2).idx < 3#3 := by decide
theorem witness_ByteInCrc_ok : (crcLast 0).phase = .crc ∧ (crcLast 0).idx = 3#3 ∧
    ((crcLast 0).crcrx <<< 8) ||| BitVec.setWidth 32 0x4E#8 = (crcLast 0).crcacc ^^^ 0xFFFFFFFF#32 := by decide
theorem witness_ByteInCrc_bad : (crcLast 0).phase = .crc ∧ (crcLast 0).idx = 3#3 ∧
    ((crcLast 0).crcrx <<< 8) ||| BitVec.setWidth 32 0x4F#8 ≠ (crcLast 0).crcacc ^^^ 0xFFFFFFFF#32 := by decide
theorem witness_ByteOutsideParse :
    Regs.reset.phase = .idle ∧ (regsIn .done 0).phase = .done ∧ mismatched.phase = .err := by decide

/-! ### Witnesses: the rules of the whole machine -/

/-- The invariants hold in a state inside a payload. -/
theorem witness_inv : (stateOf (inData 42 0x2B7BF6C3)).regs.Inv where
  idleDone := by decide
  inData := by decide
  fieldIdx := by decide
  idleIsReset := by decide
  errIff := by decide
  ephaseIff := by decide
  inCrc := by decide
  inType := by decide
  errBadSignature := by decide
  errTruncated := by decide
  errChecksumMismatch := by decide

/-- The invariants hold after a checksum mismatch. -/
theorem witness_inv_err : mismatched.Inv where
  idleDone := by decide
  inData := by decide
  fieldIdx := by decide
  idleIsReset := by decide
  errIff := by decide
  ephaseIff := by decide
  inCrc := by decide
  inType := by decide
  errBadSignature := by decide
  errTruncated := by decide
  errChecksumMismatch := by decide

theorem witness_PhaseFollowsTransitionTable :
    ((stateOf (inData 42 0x2B7BF6C3)).present 0x254).regs.Inv ∧
    ((stateOf (inData 42 0x2B7BF6C3)).present 0x254).port = PortSample.ofCommand 0x254 :: [] ∧
    step ((stateOf (inData 42 0x2B7BF6C3)).present 0x254) =
      .next { stateOf (inData 41 0x6E407D11) with ev := Events.emitPayload 0x54 false } := ⟨witness_inv, rfl, rfl⟩

theorem witness_PhaseFollowsTransitionTable_reset :
    ({ stateOf mismatched with port := [⟨false, true, 0x289⟩] } : State).port = ⟨false, true, 0x289⟩ :: [] ∧
    step { stateOf mismatched with port := [⟨false, true, 0x289⟩] } = .next State.reset := ⟨rfl, rfl⟩

theorem witness_EveryEdgeKeepsInvariants :
    ((stateOf (inData 42 0x2B7BF6C3)).present 0x254).regs.Inv ∧
    step ((stateOf (inData 42 0x2B7BF6C3)).present 0x254) =
      .next { stateOf (inData 41 0x6E407D11) with ev := Events.emitPayload 0x54 false } := ⟨witness_inv, rfl⟩

theorem witness_AtMostOneEventPerEdge :
    step ((stateOf (crcLast 0)).present 0x24E) =
      .next { stateOf { crcLast 1 with phase := .len, idx := 0, crcrx := 0xABD1D84E } with ev := Events.emitOk } := rfl

/-- A mismatch, where CRCRX changes too. -/
theorem witness_RaiseRecordsPhaseAndCode :
    step ((stateOf (crcLast 0)).present 0x24F) = .next { stateOf mismatched with ev := Events.emitErr } ∧
    ({ stateOf mismatched with ev := Events.emitErr } : State).ev.err = true := ⟨rfl, rfl⟩

theorem witness_RaiseRecordsPhaseAndCode_truncated :
    step ((stateOf (regsIn .len 1)).present 0x300) =
      .next { stateOf { regsIn .err 1 with err := .truncated, ephase := .len } with ev := Events.emitErr } ∧
    ({ regsIn .err 1 with err := .truncated, ephase := .len } : Regs).err ≠ .checksumMismatch := ⟨rfl, by decide⟩

theorem witness_FrameErrorCauses_badSignature :
    exec (.byte 0x48) (stateOf (regsIn .sig 3)) =
      .next { stateOf { regsIn .err 3 with err := .badSignature, ephase := .sig } with ev := Events.emitErr } ∧
    (0x48#8 : Byte) ≠ sigRomAt 3 := ⟨rfl, by decide⟩

theorem witness_FrameErrorCauses_truncated :
    exec (.endStream 0) (stateOf (regsIn .len 1)) =
      .next { stateOf { regsIn .err 1 with err := .truncated, ephase := .len } with ev := Events.emitErr } := rfl

theorem witness_FrameErrorCauses_checksumMismatch :
    exec (.byte 0x4F) (stateOf (crcLast 0)) = .next { stateOf mismatched with ev := Events.emitErr } := rfl

theorem witness_ErrLeftOnlyByStartOrReset :
    ((stateOf mismatched).present 0x102).port = PortSample.ofCommand 0x102 :: [] ∧ mismatched.phase = .err ∧
    step ((stateOf mismatched).present 0x102) =
      .next { stateOf { mismatched with perr := true } with ev := Events.emitPerr } := ⟨rfl, rfl, rfl⟩

theorem witness_EndIsFinal :
    ((inData 1 0).phase.active = true ∧
      exec (.endStream 0) (stateOf (inData 1 0)) =
        .next { stateOf { inData 1 0 with phase := .err, err := .truncated, ephase := .data } with ev := Events.emitErr }) ∧
    ((stateOf (regsIn .done 0)).present 0x300).port = PortSample.ofCommand 0x300 :: [] ∧
    step ((stateOf (regsIn .done 0)).present 0x300) =
      .next { stateOf { regsIn .done 0 with perr := true } with ev := Events.emitPerr } := ⟨⟨rfl, rfl⟩, rfl, rfl⟩

theorem witness_ProtocolErrorCauses :
    (State.reset.present 0x241).port = PortSample.ofCommand 0x241 :: [] ∧
    step (State.reset.present 0x241) = .next { stateOf { Regs.reset with perr := true } with ev := Events.emitPerr } ∧
    ({ stateOf { Regs.reset with perr := true } with ev := Events.emitPerr } : State).ev.perr = true := ⟨rfl, rfl, rfl⟩

theorem witness_ProtocolErrorCauses_sticky :
    ((stateOf { regsIn .len 0 with perr := true }).present 0x300).port = PortSample.ofCommand 0x300 :: [] ∧
    step ((stateOf { regsIn .len 0 with perr := true }).present 0x300) =
      .next { stateOf { regsIn .done 0 with perr := true } with ev := Events.emitDone } ∧
    (∀ d, decode 0x300#11 ≠ .command (.start d)) := ⟨rfl, rfl, fun _ h => by cases h⟩

theorem witness_ByteFrame_perr :
    exec (.byte 0x41) State.reset = .next { stateOf { Regs.reset with perr := true } with ev := Events.emitPerr } ∧
    ({ Regs.reset with perr := true } : Regs).perr ≠ Regs.reset.perr := ⟨rfl, by decide⟩

theorem witness_ByteFrame_nchunk :
    exec (.byte 0x4E) (stateOf (crcLast 0)) =
      .next { stateOf { crcLast 1 with phase := .len, idx := 0, crcrx := 0xABD1D84E } with ev := Events.emitOk } ∧
    ({ crcLast 1 with phase := .len, idx := 0, crcrx := 0xABD1D84E } : Regs).nchunk ≠ (crcLast 0).nchunk :=
  ⟨rfl, by decide⟩

theorem witness_ByteFrame_err :
    exec (.byte 0x4F) (stateOf (crcLast 0)) = .next { stateOf mismatched with ev := Events.emitErr } ∧
    Events.emitErr.err = true ∧ Events.emitOk.err = false := ⟨rfl, rfl, rfl⟩

theorem witness_DatapathRegisterWriters_len :
    (∀ d, (Instr.byte 0xFF) ≠ .start d) ∧
    exec (.byte 0xFF) (stateOf { regsIn .len 3 with len := 0x00FFFFFF, crcacc := 5 }) =
      .next (stateOf { regsIn .type 0 with len := 0xFFFFFFFF, rem := 0xFFFFFFFF }) ∧
    (0xFFFFFFFF#32 : Word) ≠ 0x00FFFFFF ∧ (0xFFFFFFFF#32 : Word) ≠ 5 ∧ (0xFFFFFFFF#32 : Word) ≠ 0 :=
  ⟨fun _ => Instr.noConfusion, rfl, by decide, by decide, by decide⟩

theorem witness_DatapathRegisterWriters_type :
    exec (.byte 0x74) (stateOf (typeLast 42)) = .next { stateOf (inData 42 0x2B7BF6C3) with ev := Events.emitHdr } ∧
    (inData 42 0x2B7BF6C3).type ≠ (typeLast 42).type ∧ (inData 42 0x2B7BF6C3).crcacc ≠ (typeLast 42).crcacc :=
  ⟨rfl, by decide, by decide⟩

theorem witness_DatapathRegisterWriters_rem :
    exec (.byte 0x54) (stateOf (inData 42 0x2B7BF6C3)) =
      .next { stateOf (inData 41 0x6E407D11) with ev := Events.emitPayload 0x54 false } ∧
    (inData 41 0x6E407D11).rem ≠ (inData 42 0x2B7BF6C3).rem := ⟨rfl, by decide⟩

theorem witness_DatapathRegisterWriters_crcrx :
    exec (.byte 0x4E) (stateOf (crcLast 0xFFFFFFFE)) =
      .next { stateOf { crcLast 0xFFFFFFFF with phase := .len, idx := 0, crcrx := 0xABD1D84E } with ev := Events.emitOk } ∧
    (crcLast 0xFFFFFFFF).nchunk ≠ (crcLast 0xFFFFFFFE).nchunk ∧ 0xABD1D84E#32 ≠ (crcLast 0xFFFFFFFE).crcrx :=
  ⟨rfl, by decide, by decide⟩

theorem witness_SigmAndPerrClearedOnlyByStart :
    ((stateOf { regsIn .len 0 with perr := true }).present 0x101).port = PortSample.ofCommand 0x101 :: [] ∧
    step ((stateOf { regsIn .len 0 with perr := true }).present 0x101) = .next (stateOf (Regs.started true)) ∧
    (Regs.started true).sigm ≠ (regsIn .len 0).sigm ∧ (Regs.started true).perr = false := ⟨rfl, rfl, by decide, rfl⟩

theorem witness_SignatureStageNeedsStart1 :
    ((regsIn .sig 3).phase = .sig → { regsIn .sig 3 with sigm := true }.sigm = true) ∧
    step ((stateOf { regsIn .sig 3 with sigm := true }).present 0x248) =
      .next { stateOf { regsIn .err 3 with sigm := true, err := .badSignature, ephase := .sig } with ev := Events.emitErr } :=
  ⟨fun _ => rfl, rfl⟩

/-! ### Witnesses: reading, the type code and the checksum -/

theorem witness_DatapathStatusRegisters : (8#4 ≤ 8#4 ∧ 8#4 ≤ 15#4) ∧ (1#4 ≤ 1#4 ∧ 1#4 ≤ 6#4) ∧ 1#4 ≤ 6#4 ∧ 6#4 ≤ 6#4 := by
  decide
theorem witness_StatusRegistersShowWholeState (n : BitVec 4) :
    (stateOf mismatched).rdData n = ({ stateOf mismatched with ev := Events.emitErr } : State).rdData n := rfl
theorem witness_CaseBitOfLetters : alpha 0x41 = true ∧ alpha 0x5A = true ∧ alpha 0x61 = true ∧ alpha 0x7A = true := by decide
theorem witness_CrcDetectsOneChangedByte : (0x52#8 : Byte) ≠ 0x72#8 := by decide

/-! ### Witnesses: frames and streams -/

/-- The frame of P6, type "teSt", payload 00 FF. -/
def teSt : Frame := ⟨0x74655374, [0x00, 0xFF]⟩

/-- The frame of vector X9, with no payload. -/
def iend : Frame := ⟨0x49454E44, []⟩

set_option maxRecDepth 20000 in
/-- X12 as the stored checksum of a frame (R91). -/
theorem test_frame_bytes : teSt.bytes = [0, 0, 0, 2, 0x74, 0x65, 0x53, 0x74, 0x00, 0xFF, 0xD7, 0xE1, 0x99, 0x04] := by decide

set_option maxRecDepth 20000 in
theorem witness_FrameFromBoundary : teSt.fits ∧ iend.fits ∧ (stateOf (regsIn .len 0)).regs.phase = .len ∧
    (stateOf (regsIn .len 0)).regs.idx = 0#3 ∧ 0xD7E19904#32 = crc32 teSt.body ∧ 0xD7E19905#32 ≠ crc32 teSt.body :=
  ⟨by unfold Frame.fits; decide, by unfold Frame.fits; decide, by decide, by decide, by decide, by decide⟩
theorem witness_ChecksumReadableDuringFrame : teSt.fits ∧ 0 ≤ teSt.body.length ∧ 6 ≤ teSt.body.length ∧
    6 = teSt.body.length := ⟨by unfold Frame.fits; decide, by decide, by decide, by decide⟩
theorem witness_BadSignatureStream : ¬ sigRom <+: [0x89#8, 0x50#8, 0x4E#8, 0x47#8] ∧ ¬ sigRom <+: [] := by decide
theorem witness_GoodStreamParses : ∀ f ∈ [iend, teSt], f.fits := by
  intro f hf
  simp only [List.mem_cons, List.not_mem_nil, or_false] at hf
  rcases hf with rfl | rfl <;> (unfold Frame.fits; decide)
set_option maxRecDepth 20000 in
theorem witness_MismatchStream : (∀ g ∈ [iend], g.fits) ∧ teSt.fits ∧ 0xD7E19905#32 ≠ crc32 teSt.body :=
  ⟨fun g hg => witness_GoodStreamParses g (by simp at hg; simp [hg]), witness_FrameFromBoundary.1, by decide⟩
theorem witness_TruncatedStream_noLength : (∀ g ∈ [iend, teSt], g.fits) ∧ [0x00#8, 0x00#8, 0x00#8] ≠ [] ∧
    [0x00#8, 0x00#8, 0x00#8].length < 4 := ⟨witness_GoodStreamParses, by decide, by decide⟩
theorem witness_TruncatedStream_frame : ∃ (l : Word) (more : List Byte),
    [0x00#8, 0x00#8, 0x00#8, 0x00#8, 0x49#8, 0x45#8, 0x4E#8, 0x44#8, 0xAE#8, 0x42#8, 0x60#8] = unfold4 l ++ more ∧
    more.length < 8 + l.toNat :=
  ⟨0, [0x49#8, 0x45#8, 0x4E#8, 0x44#8, 0xAE#8, 0x42#8, 0x60#8], by decide, by decide⟩
theorem witness_ChangedByteFailsFrame : teSt.fits ∧ teSt.body = [0x74, 0x65, 0x53, 0x74, 0x00] ++ 0xFF :: [] ∧
    (0xFF#8 : Byte) ≠ 0xFE#8 := ⟨witness_FrameFromBoundary.1, by decide, by decide⟩
theorem witness_ModeMustMatchStream : [0x00#8, 0x01#8].length < 0x89504E47 ∧ (0x00#8 : Byte) ≠ 0x89#8 := by decide

end Sys2Proof.Tests
end

