-- ==== Sys2Proof/Proofs/Scope.lean ====
section
/-! PROOFS. What every edge keeps to: a well-formed event record (R11), the command the decoder reads (R87), and a next state
(R186). -/

namespace Sys2Proof.Machine

/-! ### Well-formed event records (R11) -/

theorem Events.none_wf : Events.none.Wf := ⟨Nat.zero_le 1, fun _ => ⟨rfl, rfl⟩⟩
theorem Events.emitHdr_wf : Events.emitHdr.Wf := ⟨le_rfl, fun _ => ⟨rfl, rfl⟩⟩
theorem Events.emitOk_wf : Events.emitOk.Wf := ⟨le_rfl, fun _ => ⟨rfl, rfl⟩⟩
theorem Events.emitErr_wf : Events.emitErr.Wf := ⟨le_rfl, fun _ => ⟨rfl, rfl⟩⟩
theorem Events.emitDone_wf : Events.emitDone.Wf := ⟨le_rfl, fun _ => ⟨rfl, rfl⟩⟩
theorem Events.emitPerr_wf : Events.emitPerr.Wf := ⟨le_rfl, fun _ => ⟨rfl, rfl⟩⟩

/-- The one record whose payload fields may be set: it has `pl_valid`. -/
theorem Events.emitPayload_wf (b : Byte) (l : Bool) : (Events.emitPayload b l).Wf := ⟨le_rfl, nofun⟩

theorem ByteCase.events_wf {b : Byte} {r r' : Regs} {e : Events} (h : ByteCase b r r' e) : e.Wf := by
  cases h with
  | sigLast | sigNext | lenLast | lenNext | typeNext | crcNext | ignored => exact Events.none_wf
  | typeLastEmpty | typeLast => exact Events.emitHdr_wf
  | dataLast | dataNext => exact Events.emitPayload_wf b _
  | crcOk => exact Events.emitOk_wf
  | sigBad | crcBad => exact Events.emitErr_wf
  | inactive => exact Events.emitPerr_wf

theorem EndCase.events_wf {r r' : Regs} {e : Events} (h : EndCase r r' e) : e.Wf := by
  cases h with
  | done => exact Events.emitDone_wf
  | inLen | inFrame | inSig => exact Events.emitErr_wf
  | inactive => exact Events.emitPerr_wf
  | ignored => exact Events.none_wf

theorem CommandCase.events_wf {r r' : Regs} {i : Instr} {e : Events} (h : CommandCase r i r' e) : e.Wf := by
  cases h with
  | nop | start => exact Events.none_wf
  | startSpare => exact Events.emitPerr_wf
  | byte _ _ _ hb => exact hb.events_wf
  | endStream _ _ _ he => exact he.events_wf

theorem EdgeCase.events_wf {r r' : Regs} {ps : List PortSample} {e : Events} (h : EdgeCase r ps r' e) : e.Wf := by
  cases h with
  | nothing | reset | idle => exact Events.none_wf
  | reserved => exact Events.emitPerr_wf
  | command _ _ _ _ _ _ hc => exact hc.events_wf

/-! ### A presented command (R80, R87) -/

/-- The fields of every command's word. -/
theorem encode_fields (i : Instr) : Laws.EncodeFields.Statement i := by
  cases i with
  | nop d => exact Laws.EncodeFields.nop d
  | start d => exact Laws.EncodeFields.start d
  | byte b => exact Laws.EncodeFields.byte b
  | endStream d => exact Laws.EncodeFields.endStream d

/-- A well-formed command is read back whole from its word. `START` alone uses the hypothesis: its spare bits are 0. -/
theorem decode_encode {i : Instr} (h : i.wellFormed = true) : decode (encode i) = .command i := by
  obtain ⟨hop, hd⟩ := encode_fields i
  cases i with
  | nop d => simp [decode, hop, hd, Instr.opcode, Instr.operand]
  | start d =>
    have hspare : d.extractLsb' 1 7 = 0#7 := eq_of_beq h
    simp [decode, hop, hd, Instr.opcode, Instr.operand, hspare]
  | byte b => simp [decode, hop, hd, Instr.opcode, Instr.operand]
  | endStream d => simp [decode, hop, hd, Instr.opcode, Instr.operand]

/-- With room for eleven bits, `withFetchWord` presents the word whose number it is given. -/
theorem withFetchWord_toNat (s : State) {nbits : Nat} (w : CmdWord) (h : 11 ≤ nbits) :
    s.withFetchWord nbits w.toNat = s.present w := by
  have hlt : w.toNat < 2 ^ nbits := w.isLt.trans_le (Nat.pow_le_pow_right Nat.two_pos h)
  rw [State.withFetchWord, tableBits, Nat.mod_eq_of_lt hlt, BitVec.ofNat_toNat, BitVec.setWidth_eq]

/-! ### The obligations -/

/-- Settles O22: each case of an edge leaves one of the seven records of R11, and each of these is well formed. -/
theorem atMostOneEventPerEdge : Obligations.AtMostOneEventPerEdge := by
  intro s t h
  obtain ⟨-, hcase⟩ := step_inv h
  exact hcase.events_wf

/-- Settles O5: an edge runs the presented word, and a word runs as the command it decodes to. -/
theorem stepRunsDecodedCommand : Obligations.StepRunsDecodedCommand := by
  constructor
  · intro s w rest i hport hdec
    have hafter : s.afterEdge = { s with port := rest } := by rw [State.afterEdge, hport, List.tail_cons]
    rw [step_ofCommand hport, runWord_command hdec, hafter]
  · intro s i nbits hwf hn
    rw [withFetchWord_toNat s _ hn, step_present, runWord_command (decode_encode hwf)]

/-- Settles O10: the case lemmas of `exec` and `step` each give the next state. -/
theorem everyEdgeHasNextState : Obligations.EveryEdgeHasNextState := by
  constructor
  · intro i s
    obtain ⟨r, e, h, -⟩ := exec_case i s
    exact ⟨_, h, rfl⟩
  · intro s
    obtain ⟨r, e, h, -⟩ := step_case s
    exact ⟨_, h, rfl⟩

end Sys2Proof.Machine
end

