-- ==== Sys2Proof/Proofs/Registers.lean ====
section
/-! PROOFS. The register state: what each register's writers are (R23 to R30, R33), the invariants of every reachable state
(R34), and what the host reads of the registers (R36 to R40, R43, R46). -/

namespace Sys2Proof.Machine

/-! ### Building the invariants, phase by phase (R34) -/

/-- (e) read from the left: outside ERR no error and no error phase is recorded. -/
theorem Regs.Inv.noError {r : Regs} (h : r.Inv) (hp : r.phase ≠ .err) : r.err = .noError ∧ r.ephase = .idle :=
  ⟨not_not.mp (mt h.errIff.mp hp), not_not.mp (mt h.ephaseIff.mp hp)⟩

/-- Outside IDLE and ERR, with no error recorded, the invariants are the clauses on the counters alone. -/
theorem Regs.inv_of_noError {r : Regs} (hidle : r.phase ≠ .idle) (herr : r.phase ≠ .err)
    (hq : r.err = .noError ∧ r.ephase = .idle) (hdone : r.phase = .done → r.idx = 0#3)
    (hdata : r.phase = .data → r.idx = 0#3 ∧ 1#32 ≤ r.rem ∧ r.rem ≤ r.len)
    (hidx : r.phase = .len ∨ r.phase = .type ∨ r.phase = .crc → r.idx ≤ 3#3)
    (hcrc : r.phase = .crc → r.rem = 0#32)
    (htype : r.phase = .type → r.rem = r.len ∧ (r.idx = 0#3 → r.crcacc = 0xFFFFFFFF#32)) : r.Inv where
  idleDone := fun hp => hdone (hp.resolve_left hidle)
  inData := hdata
  fieldIdx := hidx
  idleIsReset := fun hp => absurd hp hidle
  errIff := iff_of_false (not_not.mpr hq.1) herr
  ephaseIff := iff_of_false (not_not.mpr hq.2) herr
  inCrc := hcrc
  inType := htype
  errBadSignature := fun hp => absurd hp herr
  errTruncated := fun hp => absurd hp herr
  errChecksumMismatch := fun hp => absurd hp herr

section PerPhase
variable {r : Regs} (hq : r.err = .noError ∧ r.ephase = .idle)
include hq

theorem Regs.inv_sig (hp : r.phase = .sig) : r.Inv := by
  apply Regs.inv_of_noError <;> simp [hp, hq]

theorem Regs.inv_len (hp : r.phase = .len) (hi : r.idx ≤ 3#3) : r.Inv := by
  apply Regs.inv_of_noError <;> simp [hp, hq, hi]

theorem Regs.inv_type (hp : r.phase = .type) (hi : r.idx ≤ 3#3) (hr : r.rem = r.len)
    (hc : r.idx = 0#3 → r.crcacc = 0xFFFFFFFF#32) : r.Inv := by
  apply Regs.inv_of_noError <;> simp +contextual [hp, hq, hi, hr, hc]

theorem Regs.inv_data (hp : r.phase = .data) (hi : r.idx = 0#3) (hpos : 1#32 ≤ r.rem) (hle : r.rem ≤ r.len) : r.Inv := by
  apply Regs.inv_of_noError <;> simp [hp, hq, hi, hpos, hle]

theorem Regs.inv_crc (hp : r.phase = .crc) (hi : r.idx ≤ 3#3) (hr : r.rem = 0#32) : r.Inv := by
  apply Regs.inv_of_noError <;> simp [hp, hq, hi, hr]

theorem Regs.inv_done (hp : r.phase = .done) (hi : r.idx = 0#3) : r.Inv := by
  apply Regs.inv_of_noError <;> simp [hp, hq, hi]

end PerPhase

/-- Each frame error has a code of its own (R175). -/
theorem FrameError.errCode_injective {e f : FrameError} (h : e.errCode = f.errCode) : e = f := by
  cases e <;> cases f <;> cases h <;> rfl

/-- An error entry meets the invariants where its code is one the interrupted phase can raise (h). -/
theorem Regs.raise_inv {r : Regs} {e : FrameError} (hidle : r.phase ≠ .idle)
    (hbad : e = .badSignature → r.phase = .sig)
    (htrunc : e = .truncated → r.phase = .len ∨ r.phase = .type ∨ r.phase = .data ∨ r.phase = .crc)
    (hsum : e = .checksumMismatch → r.phase = .crc ∧ r.idx = 3#3 ∧ r.crcrx ≠ crcFinal r.crcacc) : (r.raise e).Inv where
  idleDone := by simp
  inData := by simp
  fieldIdx := by simp
  idleIsReset := by simp
  errIff := iff_of_true e.errCode_ne_noError rfl
  ephaseIff := iff_of_true hidle rfl
  inCrc := by simp
  inType := by simp
  errBadSignature := fun _ he => hbad (FrameError.errCode_injective he)
  errTruncated := fun _ he => htrunc (FrameError.errCode_injective he)
  errChecksumMismatch := fun _ he => hsum (FrameError.errCode_injective he)

theorem Regs.reset_inv : Regs.reset.Inv := by
  constructor <;> simp
  case idleIsReset => rfl

theorem Regs.started_inv (sig : Bool) : (Regs.started sig).Inv := by
  cases sig with
  | true => exact Regs.inv_sig ⟨rfl, rfl⟩ rfl
  | false => exact Regs.inv_len ⟨rfl, rfl⟩ rfl (by decide)

/-- PERR takes part in no invariant but (d), which leaves it free. -/
theorem Regs.Inv.setPerr {r : Regs} (h : r.Inv) : ({ r with perr := true } : Regs).Inv :=
  { h with idleIsReset := fun hp => by rw [h.idleIsReset hp] }

/-! ### Every edge keeps the invariants -/

/-- A field's index that is not the last one counts on inside the field, and does not come back to 0. -/
theorem Idx.succ_inField {i : Idx} (hi : i ≤ 3#3) (hne : i ≠ 3#3) : i + 1#3 ≤ 3#3 ∧ i + 1#3 ≠ 0#3 := by
  revert i
  decide

theorem Word.one_le_of_ne_zero {v : Word} (h : v ≠ 0#32) : 1#32 ≤ v := by bv_omega

/-- A payload counter above its last value stays inside the payload when it counts down. -/
theorem Word.pred_inPayload {v l : Word} (hpos : 1#32 ≤ v) (hle : v ≤ l) (hne : v ≠ 1#32) :
    1#32 ≤ v - 1#32 ∧ v - 1#32 ≤ l := by
  bv_omega

theorem ByteCase.inv {b : Byte} {r r' : Regs} {e : Events} (h : ByteCase b r r' e) (hr : r.Inv) : r'.Inv := by
  have hq := hr.noError
  have hidx := hr.fieldIdx
  cases h with
  | sigLast hp => exact Regs.inv_len (hq (by simp [hp])) rfl (by simp)
  | sigNext hp => exact Regs.inv_sig (hq (by simp [hp])) hp
  | sigBad hp => exact Regs.raise_inv (by simp [hp]) (fun _ => hp) nofun nofun
  | lenLast hp => exact Regs.inv_type (hq (by simp [hp])) rfl (by simp) rfl (fun _ => rfl)
  | lenNext hp hi => exact Regs.inv_len (hq (by simp [hp])) hp (Idx.succ_inField (hidx (by simp [hp])) hi).1
  | typeLastEmpty hp _ hz => exact Regs.inv_crc (hq (by simp [hp])) rfl (by simp) hz
  | typeLast hp _ hz =>
    obtain ⟨hlen, -⟩ := hr.inType hp
    exact Regs.inv_data (hq (by simp [hp])) rfl rfl (Word.one_le_of_ne_zero hz) (BitVec.le_of_eq hlen)
  | typeNext hp hi =>
    obtain ⟨hlen, -⟩ := hr.inType hp
    obtain ⟨hle, hne⟩ := Idx.succ_inField (hidx (by simp [hp])) hi
    exact Regs.inv_type (hq (by simp [hp])) hp hle hlen (fun h0 => absurd h0 hne)
  | dataLast hp hone => exact Regs.inv_crc (hq (by simp [hp])) rfl (by simp) (by simp [hone])
  | dataNext hp hone =>
    obtain ⟨hi, hpos, hle⟩ := hr.inData hp
    obtain ⟨hpos', hle'⟩ := Word.pred_inPayload hpos hle hone
    exact Regs.inv_data (hq (by simp [hp])) hp hi hpos' hle'
  | crcOk hp => exact Regs.inv_len (hq (by simp [hp])) rfl (by simp)
  | crcBad hp hi hc => exact Regs.raise_inv (by simp [hp]) nofun nofun (fun _ => ⟨hp, hi, hc⟩)
  | crcNext hp hi =>
    exact Regs.inv_crc (hq (by simp [hp])) hp (Idx.succ_inField (hidx (by simp [hp])) hi).1 (hr.inCrc hp)
  | inactive => exact hr.setPerr
  | ignored => exact hr

theorem EndCase.inv {r r' : Regs} {e : Events} (h : EndCase r r' e) (hr : r.Inv) : r'.Inv := by
  cases h with
  | done hp hi => exact Regs.inv_done (hr.noError (by simp [hp])) rfl hi
  | inLen hp => exact Regs.raise_inv (by simp [hp]) nofun (fun _ => .inl hp) nofun
  | inFrame hp =>
    have hidle : r.phase ≠ .idle := by rcases hp with hp | hp | hp <;> simp [hp]
    exact Regs.raise_inv hidle nofun (fun _ => .inr hp) nofun
  | inSig hp => exact Regs.raise_inv (by simp [hp]) (fun _ => hp) nofun nofun
  | inactive => exact hr.setPerr
  | ignored => exact hr

theorem CommandCase.inv {r r' : Regs} {i : Instr} {e : Events} (h : CommandCase r i r' e) (hr : r.Inv) : r'.Inv := by
  cases h with
  | nop => exact hr
  | start => exact Regs.started_inv _
  | startSpare => exact hr.setPerr
  | byte _ _ _ hb => exact hb.inv hr
  | endStream _ _ _ he => exact he.inv hr

theorem EdgeCase.inv {r r' : Regs} {ps : List PortSample} {e : Events} (h : EdgeCase r ps r' e) (hr : r.Inv) : r'.Inv := by
  cases h with
  | nothing | idle => exact hr
  | reset => exact Regs.reset_inv
  | reserved => exact hr.setPerr
  | command _ _ _ _ _ _ hc => exact hc.inv hr

/-- Settles O31: the clauses on IDLE hold of the reset values, and the others speak of phases that reset does not give. -/
theorem resetMeetsInvariants : Obligations.ResetMeetsInvariants := Regs.reset_inv

/-- Settles O32: the reset state meets the invariants, and so does what each case of an edge leaves. -/
theorem everyEdgeKeepsInvariants : Obligations.EveryEdgeKeepsInvariants := by
  refine ⟨Regs.reset_inv, fun s t hs hstep => ?_⟩
  obtain ⟨-, hcase⟩ := step_inv hstep
  exact hcase.inv hs

/-! ### The writers of the datapath registers (R25 to R30) -/

/-- The six datapath registers hold the same values. -/
structure Regs.SameDatapath (r r' : Regs) : Prop where
  len : r'.len = r.len
  type : r'.type = r.type
  rem : r'.rem = r.rem
  crcacc : r'.crcacc = r.crcacc
  crcrx : r'.crcrx = r.crcrx
  nchunk : r'.nchunk = r.nchunk

theorem EndCase.sameDatapath {r r' : Regs} {e : Events} (h : EndCase r r' e) : r.SameDatapath r' := by
  cases h <;> exact ⟨rfl, rfl, rfl, rfl, rfl, rfl⟩

/-- Of the commands other than `START` only `BYTE` writes a datapath register. -/
theorem CommandCase.sameDatapath_or_byte {r r' : Regs} {i : Instr} {e : Events} (h : CommandCase r i r' e)
    (hi : ∀ d, i ≠ .start d) : r.SameDatapath r' ∨ ∃ b, i = .byte b ∧ ByteCase b r r' e := by
  cases h with
  | nop => exact .inl ⟨rfl, rfl, rfl, rfl, rfl, rfl⟩
  | start d | startSpare d => exact absurd rfl (hi d)
  | byte b _ _ hb => exact .inr ⟨b, rfl, hb⟩
  | endStream _ _ _ he => exact .inl he.sameDatapath

section ByteWriters
variable {b : Byte} {r r' : Regs} {e : Events} (h : ByteCase b r r' e)
include h

theorem ByteCase.len_written (hne : r'.len ≠ r.len) : r.phase = .len ∧ r'.len = shiftIn r.len b := by
  cases h with
  | lenLast hp | lenNext hp => exact ⟨hp, rfl⟩
  | _ => exact absurd rfl hne

theorem ByteCase.type_written (hne : r'.type ≠ r.type) : r.phase = .type ∧ r'.type = shiftIn r.type b := by
  cases h with
  | typeLastEmpty hp | typeLast hp | typeNext hp => exact ⟨hp, rfl⟩
  | _ => exact absurd rfl hne

theorem ByteCase.rem_written (hne : r'.rem ≠ r.rem) :
    (r.phase = .len ∧ r.idx = 3#3 ∧ r'.rem = r'.len) ∨ (r.phase = .data ∧ r'.rem = r.rem - 1#32) := by
  cases h with
  | lenLast hp hi => exact .inl ⟨hp, hi, rfl⟩
  | dataLast hp | dataNext hp => exact .inr ⟨hp, rfl⟩
  | _ => exact absurd rfl hne

theorem ByteCase.crcacc_written (hne : r'.crcacc ≠ r.crcacc) :
    (r.phase = .len ∧ r.idx = 3#3 ∧ r'.crcacc = crcInit) ∨
    ((r.phase = .type ∨ r.phase = .data) ∧ r'.crcacc = crcUpd r.crcacc b) := by
  cases h with
  | lenLast hp hi => exact .inl ⟨hp, hi, rfl⟩
  | typeLastEmpty hp | typeLast hp | typeNext hp => exact .inr ⟨.inl hp, rfl⟩
  | dataLast hp | dataNext hp => exact .inr ⟨.inr hp, rfl⟩
  | _ => exact absurd rfl hne

theorem ByteCase.crcrx_written (hne : r'.crcrx ≠ r.crcrx) : r.phase = .crc ∧ r'.crcrx = shiftIn r.crcrx b := by
  cases h with
  | crcOk hp | crcBad hp | crcNext hp => exact ⟨hp, rfl⟩
  | _ => exact absurd rfl hne

theorem ByteCase.nchunk_written (hne : r'.nchunk ≠ r.nchunk) : e.ok = true ∧ r'.nchunk = satInc32 r.nchunk := by
  cases h with
  | crcOk => exact ⟨rfl, rfl⟩
  | _ => exact absurd rfl hne

end ByteWriters

/-- A saturating count that moves was below saturation, and moves by one (R9). -/
theorem satInc32_of_ne {v : Word} (h : satInc32 v ≠ v) : v ≠ 0xFFFFFFFF#32 ∧ satInc32 v = v + 1#32 := by
  have hv : v ≠ 0xFFFFFFFF#32 := fun hv => h (if_pos hv)
  exact ⟨hv, if_neg hv⟩

/-- Settles O29: a command other than `START` leaves the datapath or is a `BYTE`, whose cases name each register's writers. -/
theorem datapathRegisterWriters : Obligations.DatapathRegisterWriters := by
  intro i s t hi h
  obtain ⟨-, hcase⟩ := exec_inv h
  rcases hcase.sameDatapath_or_byte hi with hsame | ⟨b, rfl, hb⟩
  · exact ⟨absurd hsame.len, absurd hsame.type, absurd hsame.rem, absurd hsame.crcacc, absurd hsame.crcrx,
      absurd hsame.nchunk⟩
  · refine ⟨fun hne => ?_, fun hne => ?_, fun hne => ⟨b, rfl, hb.rem_written hne⟩,
      fun hne => ⟨b, rfl, hb.crcacc_written hne⟩, fun hne => ?_, fun hne => ?_⟩
    · obtain ⟨hp, hval⟩ := hb.len_written hne
      exact ⟨hp, b, rfl, hval⟩
    · obtain ⟨hp, hval⟩ := hb.type_written hne
      exact ⟨hp, b, rfl, hval⟩
    · obtain ⟨hp, hval⟩ := hb.crcrx_written hne
      exact ⟨hp, b, rfl, hval⟩
    · obtain ⟨hok, hval⟩ := hb.nchunk_written hne
      rw [hval] at hne ⊢
      exact ⟨hok, satInc32_of_ne hne⟩

/-! ### The writers of SIGM and PERR (R23, R33) -/

theorem ByteCase.sigm_eq {b : Byte} {r r' : Regs} {e : Events} (h : ByteCase b r r' e) : r'.sigm = r.sigm := by
  cases h <;> rfl

theorem EndCase.sigm_eq {r r' : Regs} {e : Events} (h : EndCase r r' e) : r'.sigm = r.sigm := by
  cases h <;> rfl

theorem ByteCase.perr_sticky {b : Byte} {r r' : Regs} {e : Events} (h : ByteCase b r r' e) (hp : r.perr = true) :
    r'.perr = true := by
  cases h with
  | inactive => rfl
  | _ => exact hp

theorem EndCase.perr_sticky {r r' : Regs} {e : Events} (h : EndCase r r' e) (hp : r.perr = true) : r'.perr = true := by
  cases h with
  | inactive => rfl
  | _ => exact hp

/-- A command other than `START` leaves SIGM, and PERR where it is set. -/
theorem CommandCase.sigm_eq_perr_sticky {r r' : Regs} {i : Instr} {e : Events} (h : CommandCase r i r' e)
    (hi : ∀ d, i ≠ .start d) : r'.sigm = r.sigm ∧ (r.perr = true → r'.perr = true) := by
  cases h with
  | nop => exact ⟨rfl, id⟩
  | start d | startSpare d => exact absurd rfl (hi d)
  | byte _ _ _ hb => exact ⟨hb.sigm_eq, hb.perr_sticky⟩
  | endStream _ _ _ he => exact ⟨he.sigm_eq, he.perr_sticky⟩

/-- An edge resets, or executes a `START`, or leaves SIGM, and PERR where it is set. -/
theorem EdgeCase.reset_or_start_or_sticky {r r' : Regs} {p : PortSample} {rest : List PortSample} {e : Events}
    (h : EdgeCase r (p :: rest) r' e) :
    (p.rstN = false ∨ (p.cmdValid = true ∧ ∃ d, decode p.cmd = .command (.start d))) ∨
    (r'.sigm = r.sigm ∧ (r.perr = true → r'.perr = true)) := by
  cases h with
  | reset => exact .inl (.inl rfl)
  | idle => exact .inr ⟨rfl, id⟩
  | reserved => exact .inr ⟨rfl, fun _ => rfl⟩
  | command w _ i _ _ hd hc =>
    by_cases hi : ∃ d, i = .start d
    · obtain ⟨d, rfl⟩ := hi
      exact .inl (.inr ⟨rfl, d, hd⟩)
    · exact .inr (hc.sigm_eq_perr_sticky (not_exists.mp hi))

/-- Settles O30: an edge that is neither a reset nor a `START` leaves SIGM, and PERR where it is set. -/
theorem sigmAndPerrClearedOnlyByStart : Obligations.SigmAndPerrClearedOnlyByStart := by
  intro s t p rest hport hstep hchange
  obtain ⟨-, hcase⟩ := step_inv hstep
  rw [hport] at hcase
  refine hcase.reset_or_start_or_sticky.resolve_right fun ⟨hsigm, hperr⟩ => ?_
  rcases hchange with hne | ⟨hset, hclear⟩
  · exact hne hsigm
  · simp [hperr hset] at hclear

/-- Settles O8: the sample is an idle edge. -/
theorem idleEdgeKeepsRegisters : Obligations.IdleEdgeKeepsRegisters := by
  intro s w rest hport
  rw [step_cons hport, State.afterEdge, hport]
  rfl

/-! ### Fields of a status register -/

/-- A field read at its own place. -/
@[simp] theorem extractLsb'_fieldAt {lo n : Nat} (v : BitVec n) (h : lo + n ≤ 32) : (fieldAt lo v).extractLsb' lo n = v := by
  apply BitVec.eq_of_getLsbD_eq
  intro i hi
  have hlo : ¬ lo + i < lo := by omega
  simp [fieldAt, hi, hlo, show lo + i < 32 by omega]

/-- A field reads 0 at every place beside its own. -/
@[simp] theorem extractLsb'_fieldAt_of_disjoint {lo n lo' n' : Nat} (v : BitVec n) (h : lo' + n' ≤ lo ∨ lo + n ≤ lo') :
    (fieldAt lo v).extractLsb' lo' n' = 0#n' := by
  apply BitVec.eq_of_getLsbD_eq
  intro i hi
  rcases h with h | h
  · simp [fieldAt, show lo' + i < lo by omega]
  · simp [fieldAt, BitVec.getLsbD_of_ge v (lo' + i - lo) (by omega)]

/-- A bit is the one-bit field at its place. -/
theorem getLsbD_of_extractLsb'_one {w : Word} {i : Nat} {x : Bool} (h : w.extractLsb' i 1 = BitVec.ofBool x) :
    w.getLsbD i = x := by
  simpa using congrArg (fun v : BitVec 1 => v.getLsbD 0) h

/-! ### STATUS (R36) -/

section Status
variable (r : Regs)

theorem Regs.status_phase : r.status.extractLsb' 0 3 = r.phase.code := by
  simp [Regs.status, BitVec.extractLsb'_or]

theorem Regs.status_idx : r.status.extractLsb' 3 3 = r.idx := by
  simp [Regs.status, BitVec.extractLsb'_or]

theorem Regs.status_sigm : r.status.getLsbD 6 = r.sigm := by
  apply getLsbD_of_extractLsb'_one
  simp [Regs.status, BitVec.extractLsb'_or]

theorem Regs.status_perr : r.status.getLsbD 7 = r.perr := by
  apply getLsbD_of_extractLsb'_one
  simp [Regs.status, BitVec.extractLsb'_or]

theorem Regs.status_err : r.status.extractLsb' 8 2 = r.err.code := by
  simp [Regs.status, BitVec.extractLsb'_or]

theorem Regs.status_ephase : r.status.extractLsb' 10 3 = r.ephase.code := by
  simp [Regs.status, BitVec.extractLsb'_or]

theorem Regs.status_reserved : r.status.extractLsb' 13 19 = 0#19 := by
  simp [Regs.status, BitVec.extractLsb'_or]

/-- The six registers that STATUS shows are recovered from it. -/
theorem Regs.eq_of_status_eq {r r' : Regs} (h : r.status = r'.status) :
    r.phase = r'.phase ∧ r.idx = r'.idx ∧ r.sigm = r'.sigm ∧ r.err = r'.err ∧ r.ephase = r'.ephase ∧ r.perr = r'.perr := by
  refine ⟨Phase.code_injective ?_, ?_, ?_, ErrCode.code_injective ?_, Phase.code_injective ?_, ?_⟩
  · rw [← r.status_phase, h, r'.status_phase]
  · rw [← r.status_idx, h, r'.status_idx]
  · rw [← r.status_sigm, h, r'.status_sigm]
  · rw [← r.status_err, h, r'.status_err]
  · rw [← r.status_ephase, h, r'.status_ephase]
  · rw [← r.status_perr, h, r'.status_perr]

end Status

/-- Settles O34: the fields of STATUS do not overlap, and each code fits its field. -/
theorem statusFields : Obligations.StatusFields :=
  ⟨by decide, fun s => ⟨s.regs.status_phase, s.regs.status_idx, s.regs.status_sigm, s.regs.status_perr, s.regs.status_err,
    s.regs.status_ephase, s.regs.status_reserved⟩⟩

/-! ### The read port (R37 to R40, R46) -/

section Read
variable (s : State)
@[simp] theorem State.rdData_status : s.rdData 0#4 = s.regs.status := rfl
@[simp] theorem State.rdData_len : s.rdData 1#4 = s.regs.len := rfl
@[simp] theorem State.rdData_type : s.rdData 2#4 = s.regs.type := rfl
@[simp] theorem State.rdData_rem : s.rdData 3#4 = s.regs.rem := rfl
@[simp] theorem State.rdData_crcacc : s.rdData 4#4 = crcFinal s.regs.crcacc := rfl
@[simp] theorem State.rdData_crcrx : s.rdData 5#4 = s.regs.crcrx := rfl
@[simp] theorem State.rdData_nchunk : s.rdData 6#4 = s.regs.nchunk := rfl
@[simp] theorem State.rdData_tflags : s.rdData 7#4 = tflags s.regs.type := rfl

/-- The upper half of the register space is reserved. -/
theorem State.rdData_reserved {n : BitVec 4} (h : 8#4 ≤ n) : s.rdData n = 0#32 := by
  obtain ⟨k, hk⟩ : ∃ k, n.toNat = k + 8 := ⟨n.toNat - 8, by bv_omega⟩
  simp only [State.rdData, Regs.sr, hk]

end Read

/-- Settles O35: one read equation per register. -/
theorem datapathStatusRegisters : Obligations.DatapathStatusRegisters := fun s =>
  ⟨s.rdData_len, s.rdData_type, s.rdData_rem, s.rdData_crcacc, s.rdData_crcrx, s.rdData_nchunk,
    fun _ hn => s.rdData_reserved hn, by decide⟩

/-- Settles O37: STATUS gives back the six small registers, and `SR[1]` to `SR[6]` the six of the datapath. -/
theorem statusRegistersShowWholeState : Obligations.StatusRegistersShowWholeState := by
  constructor
  · intro s t h
    obtain ⟨hphase, hidx, hsigm, herr, hephase, hperr⟩ := Regs.eq_of_status_eq (h 0#4)
    have hlen : s.regs.len = t.regs.len := h 1#4
    have htype : s.regs.type = t.regs.type := h 2#4
    have hrem : s.regs.rem = t.regs.rem := h 3#4
    have hcrcacc : s.regs.crcacc = t.regs.crcacc := crcFinal_injective (h 4#4)
    have hcrcrx : s.regs.crcrx = t.regs.crcrx := h 5#4
    have hnchunk : s.regs.nchunk = t.regs.nchunk := h 6#4
    exact (Regs.mk.injEq ..).mpr
      ⟨hphase, hidx, hsigm, hlen, htype, hrem, hcrcacc, hcrcrx, hnchunk, herr, hephase, hperr⟩
  · exact fun s => (crcFinal_crcFinal s.regs.crcacc).symm

/-! ### The level outputs (R43) -/

/-- The active phases are those whose codes are 1 to 5 (R21). -/
theorem Phase.active_iff (p : Phase) : p.active = true ↔ 1#3 ≤ p.code ∧ p.code ≤ 5#3 := by
  cases p <;> decide

/-- Settles O36: `busy` by the codes of the active phases, the others by their definitions. -/
theorem levelOutputs : Obligations.LevelOutputs :=
  ⟨fun s _ => ⟨s.regs.phase.active_iff, beq_iff_eq, beq_iff_eq, rfl, rfl⟩, fun _ => ⟨rfl, rfl, rfl, rfl, rfl⟩⟩

/-! ### TFLAGS (R39) -/

/-- What `alphaAll` tests: each of the four bytes is a letter (R121). -/
theorem alphaAll_iff (t : Word) : alphaAll t = true ↔
    alpha (byte0 t) = true ∧ alpha (byte1 t) = true ∧ alpha (byte2 t) = true ∧ alpha (byte3 t) = true := by
  simp [alphaAll, and_assoc]

section TypeFlags
variable (t : Word)

theorem tflags_critical : (tflags t).getLsbD 0 = isCritical t := by
  apply getLsbD_of_extractLsb'_one
  simp [tflags, BitVec.extractLsb'_or]

theorem tflags_public : (tflags t).getLsbD 1 = isPublic t := by
  apply getLsbD_of_extractLsb'_one
  simp [tflags, BitVec.extractLsb'_or]

theorem tflags_reservedOk : (tflags t).getLsbD 2 = isReservedBitValid t := by
  apply getLsbD_of_extractLsb'_one
  simp [tflags, BitVec.extractLsb'_or]

theorem tflags_safe : (tflags t).getLsbD 3 = isSafeToCopy t := by
  apply getLsbD_of_extractLsb'_one
  simp [tflags, BitVec.extractLsb'_or]

theorem tflags_valid : (tflags t).getLsbD 4 = isValid t := by
  apply getLsbD_of_extractLsb'_one
  simp [tflags, BitVec.extractLsb'_or]

theorem tflags_alpha : (tflags t).getLsbD 5 = alphaAll t := by
  apply getLsbD_of_extractLsb'_one
  simp [tflags, BitVec.extractLsb'_or]

theorem tflags_reserved : (tflags t).extractLsb' 6 26 = 0#26 := by
  simp [tflags, BitVec.extractLsb'_or]

end TypeFlags

/-- Settles O38: each bit of TFLAGS is its predicate of R117 to R122, the two of the letters by `alpha_iff`. -/
theorem typeFlagBits : Obligations.TypeFlagBits := by
  refine ⟨fun s => ?_, by decide⟩
  simp only [State.rdData_tflags, tflags_critical, tflags_public, tflags_reservedOk, tflags_safe, tflags_valid, tflags_alpha,
    tflags_reserved, isCritical, isPublic, isReservedBitValid, isSafeToCopy, isValid, Bool.and_eq_true, Bool.not_eq_true',
    alphaAll_iff, alpha_iff, byte0, byte1, byte2, byte3, and_self]

end Sys2Proof.Machine
end

