-- ==== Sys2Proof/Proofs/Memory.lean ====
section
/-! PROOFS. The byte stream as the host presents it: what a field reads while it is partly in (R65), and the edges that are not
part of the stream (R61, R161). -/

namespace Sys2Proof.Machine

/-! ### A field partly shifted in (R65) -/

/-- A byte shifted in pushes the field's top byte out and stands at the bottom. -/
theorem shiftIn_eq_append (r : Word) (b : Byte) : shiftIn r b = r.extractLsb' 0 24 ++ b := by
  apply BitVec.eq_of_getLsbD_eq
  intro i hi
  have htop : i - 8 < 24 := by omega
  rw [getLsbD_shiftIn r b hi, BitVec.getLsbD_append]
  simp [htop]

/-- The low bits of a word with a byte at its bottom: low bits of what stands above, and the byte. -/
theorem extractLsb'_append_byte {w : Nat} (n : Nat) (x : BitVec w) (b : Byte) :
    (x ++ b).extractLsb' 0 (n + 8) = x.extractLsb' 0 n ++ b := by
  apply BitVec.eq_of_getLsbD_eq
  intro i hi
  rw [BitVec.getLsbD_append, BitVec.getLsbD_extractLsb', BitVec.getLsbD_append]
  by_cases h8 : i < 8
  · simp [h8, hi]
  · have htop : i - 8 < n := by omega
    simp [h8, hi, htop]

/-- Settles O43: each byte shifted in is appended, and leaves the low bits of what was there before. -/
theorem partialFieldReads : Obligations.PartialFieldReads := by
  intro r b0 b1 b2
  have one : shiftIn r b0 = r.extractLsb' 0 24 ++ b0 := shiftIn_eq_append r b0
  have two : shiftIn (shiftIn r b0) b1 = r.extractLsb' 0 16 ++ b0 ++ b1 := by
    rw [shiftIn_eq_append, one, extractLsb'_append_byte 16, BitVec.extractLsb'_extractLsb'_of_le (by decide)]
  have three : shiftIn (shiftIn (shiftIn r b0) b1) b2 = r.extractLsb' 0 8 ++ b0 ++ b1 ++ b2 := by
    rw [shiftIn_eq_append, two, extractLsb'_append_byte 16, extractLsb'_append_byte 8,
      BitVec.extractLsb'_extractLsb'_of_le (by decide)]
  exact ⟨one, two, three⟩

/-! ### Edges that are not part of the stream (R61, R161) -/

/-- A quiet command is a `NOP`: its opcode field is 0 (R82, R87). -/
theorem PortSample.quiet_command {w : CmdWord} (h : (PortSample.ofCommand w).quiet = true) :
    decode w = .command (.nop (operandField w)) := by
  have hop : opField w = 0#3 := by simpa [PortSample.quiet, PortSample.ofCommand] using h
  rw [decode, if_pos hop]

theorem CommandCase.of_nop {r r' : Regs} {d : Byte} {e : Events} (h : CommandCase r (.nop d) r' e) :
    r' = r ∧ e = Events.none := by
  cases h; exact ⟨rfl, rfl⟩

/-- A quiet edge leaves the registers and records no event. -/
theorem EdgeCase.of_quiet {r r' : Regs} {p : PortSample} {rest : List PortSample} {e : Events} (hq : p.quiet = true)
    (h : EdgeCase r (p :: rest) r' e) : r' = r ∧ e = Events.none := by
  cases h with
  | reset => cases hq
  | idle => exact ⟨rfl, rfl⟩
  | reserved w _ why hd =>
    rw [PortSample.quiet_command hq] at hd
    cases hd
  | command w _ i _ _ hd hc =>
    rw [PortSample.quiet_command hq] at hd
    cases hd
    exact hc.of_nop

/-- What an edge does depends on the registers and the nearest sample, and not on the samples after it. -/
theorem EdgeCase.unique {r r1 r2 : Regs} {p : PortSample} {rest1 rest2 : List PortSample} {e1 e2 : Events}
    (h1 : EdgeCase r (p :: rest1) r1 e1) (h2 : EdgeCase r (p :: rest2) r2 e2) : r1 = r2 ∧ e1 = e2 := by
  cases h1 with
  | reset => cases h2; exact ⟨rfl, rfl⟩
  | idle => cases h2; exact ⟨rfl, rfl⟩
  | reserved w _ why hd =>
    cases h2 with
    | reserved => exact ⟨rfl, rfl⟩
    | command _ _ _ _ _ hd' => rw [hd] at hd'; cases hd'
  | command w _ i _ _ hd hc =>
    cases h2 with
    | reserved _ _ _ hd' => rw [hd] at hd'; cases hd'
    | command _ _ _ _ _ hd' hc' =>
      rw [hd] at hd'
      cases hd'
      exact hc.unique hc'

/-- The first of several edges, and the run over the others from the state it leaves. -/
theorem runEdges_presentSamples_cons (p : PortSample) (ps : List PortSample) (s : State) :
    ∃ r e, EdgeCase s.regs (p :: (ps ++ s.port)) r e ∧
      runEdges (p :: ps).length (s.presentSamples (p :: ps)) =
        (runEdges ps.length (State.presentSamples { s with regs := r, ev := e } ps)).map fun x => (x.1, e :: x.2) := by
  obtain ⟨r, e, hstep, hcase⟩ := step_case (s.presentSamples (p :: ps))
  exact ⟨r, e, hcase, runEdges_succ ps.length hstep⟩

/-- Two runs look alike to the host: they end with the same registers and the same samples still to come, and have the same
events in the same order, the empty records aside. -/
def SameStream (x y : State × List Events) : Prop :=
  x.1.regs = y.1.regs ∧ x.1.port = y.1.port ∧
    (x.2.filter fun e => e != Events.none) = y.2.filter fun e => e != Events.none

theorem SameStream.cons {t t' : State} {es es' : List Events} (e : Events) (h : SameStream (t, es) (t', es')) :
    SameStream (t, e :: es) (t', e :: es') := by
  obtain ⟨hregs, hport, hes⟩ := h
  refine ⟨hregs, hport, ?_⟩
  simp only [List.filter_cons, hes]

theorem SameStream.cons_none {t t' : State} {es es' : List Events} (h : SameStream (t, es) (t', es')) :
    SameStream (t, Events.none :: es) (t', es') := h

/-- From states that differ in the last event record alone, the run over `ps` and the run without its quiet edges look alike. -/
theorem runEdges_filter_quiet (ps : List PortSample) (s s' : State) (hregs : s.regs = s'.regs) (hport : s.port = s'.port) :
    ∃ x x', runEdges ps.length (s.presentSamples ps) = some x ∧
      runEdges (ps.filter fun p => !p.quiet).length (s'.presentSamples (ps.filter fun p => !p.quiet)) = some x' ∧
      SameStream x x' := by
  induction ps generalizing s s' with
  | nil => exact ⟨_, _, runEdges_zero _, runEdges_zero _, hregs, hport, rfl⟩
  | cons p ps ih =>
    obtain ⟨r, e, hcase, hrun⟩ := runEdges_presentSamples_cons p ps s
    rw [hrun]
    cases hq : p.quiet with
    | true =>
      obtain ⟨rfl, rfl⟩ := hcase.of_quiet hq
      obtain ⟨x, x', hx, hx', hsame⟩ := ih { s with ev := Events.none } s' hregs hport
      rw [List.filter_cons_of_neg (by simp [hq]), hx]
      exact ⟨_, x', rfl, hx', hsame.cons_none⟩
    | false =>
      obtain ⟨r', e', hcase', hrun'⟩ := runEdges_presentSamples_cons p (ps.filter fun p => !p.quiet) s'
      rw [← hregs] at hcase'
      obtain ⟨rfl, rfl⟩ := hcase.unique hcase'
      obtain ⟨x, x', hx, hx', hsame⟩ := ih { s with regs := r, ev := e } { s' with regs := r, ev := e } rfl hport
      rw [List.filter_cons_of_pos (by simp [hq]), hrun', hx, hx']
      exact ⟨_, _, rfl, rfl, hsame.cons e⟩

/-- Settles O55: by induction on the samples, a quiet edge adds an empty record to one run, and any other edge does the same to
both. -/
theorem quietEdgesDoNotMatter : Obligations.QuietEdgesDoNotMatter := by
  intro ps s
  obtain ⟨⟨t, es⟩, ⟨t', es'⟩, hrun, hrun', hsame⟩ := runEdges_filter_quiet ps s s rfl rfl
  exact ⟨t, es, t', es', hrun, hrun', hsame⟩

end Sys2Proof.Machine
end

/-! PROOFS. The command encoding: what the decoder can read in a word (R80 to R87), the match and mask of the opcode table, and
the order of the bytes of a field (R93). -/

namespace Sys2Proof.Machine

/-! ### Words as opcode and operand (R80) -/

/-- A bit vector cut in two and put together again. -/
theorem extractLsb'_append_extractLsb'_self {m n : Nat} (x : BitVec (m + n)) :
    x.extractLsb' n m ++ x.extractLsb' 0 n = x :=
  (BitVec.extractLsb'_append_extractLsb'_eq_extractLsb' (Nat.zero_add n).symm).trans BitVec.extractLsb'_eq_self

theorem opField_append_operandField (w : CmdWord) : opField w ++ operandField w = w :=
  extractLsb'_append_extractLsb'_self (m := 3) (n := 8) w

/-- Bit fields put together are equal only where the fields are. -/
theorem append_eq_append_iff {m n : Nat} {x x' : BitVec m} {y y' : BitVec n} : x ++ y = x' ++ y' ↔ x = x' ∧ y = y' := by
  constructor
  · intro h
    constructor
    · simpa only [BitVec.extractLsb'_append_eq_left] using congrArg (BitVec.extractLsb' n m) h
    · simpa only [BitVec.extractLsb'_append_eq_right] using congrArg (BitVec.extractLsb' 0 n) h
  · rintro ⟨rfl, rfl⟩
    rfl

/-- The four opcodes in use, or a reserved one (R81, R86). -/
theorem opcode_cases (op : BitVec 3) : op = 0#3 ∨ op = 1#3 ∨ op = 2#3 ∨ op = 3#3 ∨ 4#3 ≤ op := by
  bv_omega

/-- The spare bits of an operand are 0 for the two operands of `START` only (R83). -/
theorem spareBits_eq_zero_iff (d : Byte) : d.extractLsb' 1 7 = 0#7 ↔ d = 0x00#8 ∨ d = 0x01#8 := by
  simp only [← BitVec.toNat_inj, BitVec.extractLsb'_toNat, BitVec.toNat_ofNat, Nat.shiftRight_eq_div_pow]
  omega

/-! ### What the decoder can read (R87) -/

theorem decode_startOperand {d : Byte} (h : d.extractLsb' 1 7 ≠ 0#7) : decode (1#3 ++ d) = .reserved (.startOperand d) := by
  obtain ⟨hop, hd⟩ := Laws.fields_append 1#3 d
  simp [decode, hop, hd, h]

theorem reservedOpcode_ne {op : BitVec 3} (h : 4#3 ≤ op) : op ≠ 0#3 ∧ op ≠ 1#3 ∧ op ≠ 2#3 ∧ op ≠ 3#3 := by
  bv_omega

theorem decode_reservedOpcode {op : BitVec 3} (d : Byte) (h : 4#3 ≤ op) : decode (op ++ d) = .reserved (.opcode op) := by
  obtain ⟨hop, -⟩ := Laws.fields_append op d
  obtain ⟨h0, h1, h2, h3⟩ := reservedOpcode_ne h
  simp [decode, hop, h0, h1, h2, h3]

/-- Everything a word can be: the encoding of a well-formed command, or reserved for one of the two reasons of R86. -/
inductive WordCase : CmdWord → Decoded → Prop where
  | command (i : Instr) (h : i.wellFormed = true) : WordCase (encode i) (.command i)
  | startOperand (d : Byte) (h : d.extractLsb' 1 7 ≠ 0#7) : WordCase (1#3 ++ d) (.reserved (.startOperand d))
  | opcode (op : BitVec 3) (d : Byte) (h : 4#3 ≤ op) : WordCase (op ++ d) (.reserved (.opcode op))

/-- Every word is one of the cases, and the decoder reads that case in it. -/
theorem decode_case (w : CmdWord) : WordCase w (decode w) := by
  have command (i : Instr) (h : i.wellFormed = true) : WordCase (encode i) (decode (encode i)) := by
    rw [decode_encode h]; exact .command i h
  rw [← opField_append_operandField w]
  generalize opField w = op, operandField w = d
  rcases opcode_cases op with rfl | rfl | rfl | rfl | hop
  · exact command (.nop d) rfl
  · by_cases hd : d.extractLsb' 1 7 = 0#7
    · exact command (.start d) (beq_iff_eq.2 hd)
    · rw [decode_startOperand hd]; exact .startOperand d hd
  · exact command (.byte d) rfl
  · exact command (.endStream d) rfl
  · rw [decode_reservedOpcode d hop]; exact .opcode op d hop

/-- The inversion form of `decode_case`, for a command. -/
theorem decode_command_inv {w : CmdWord} {i : Instr} (h : decode w = .command i) : i.wellFormed = true ∧ encode i = w := by
  have hcase := decode_case w
  rw [h] at hcase
  cases hcase with
  | command _ hwf => exact ⟨hwf, rfl⟩

/-! ### The opcode table (R82 to R85) -/

/-- A row whose mask holds the whole opcode covers the words of its opcode whose masked operand is 0. -/
theorem OpcodeRow.covers_iff (m : String) (k op : BitVec 3) (mask d : Byte) :
    OpcodeRow.covers ⟨m, k ++ 0x00#8, 7#3 ++ mask⟩ (op ++ d) = true ↔ op = k ∧ d &&& mask = 0x00#8 := by
  have hop : op &&& 7#3 = op := BitVec.and_allOnes
  rw [OpcodeRow.covers, beq_iff_eq, BitVec.and_append, hop]
  exact append_eq_append_iff

/-- The operand mask of the `START` row keeps the spare bits. -/
theorem and_spareMask (d : Byte) : d &&& 0xFE#8 = d.extractLsb' 1 7 ++ 0#1 := by
  have hd : d.extractLsb' 1 7 ++ d.extractLsb' 0 1 = d := extractLsb'_append_extractLsb'_self (m := 7) (n := 1) d
  calc d &&& 0xFE#8 = (d.extractLsb' 1 7 ++ d.extractLsb' 0 1) &&& (127#7 ++ 0#1) := by rw [hd]; rfl
    _ = d.extractLsb' 1 7 ++ 0#1 := by rw [BitVec.and_append, BitVec.and_zero]; congr 1; exact BitVec.and_allOnes

theorem and_spareMask_eq_zero_iff (d : Byte) : d &&& 0xFE#8 = 0x00#8 ↔ d.extractLsb' 1 7 = 0#7 := by
  have happend := append_eq_append_iff (x := d.extractLsb' 1 7) (x' := 0#7) (y := 0#1) (y' := 0#1)
  rw [and_spareMask]
  exact happend.trans (and_iff_left rfl)

section Rows
variable (op : BitVec 3) (d : Byte)

@[simp] theorem nopRow_covers : OpcodeRow.covers ⟨"NOP", 0x000#11, 0x700#11⟩ (op ++ d) = true ↔ op = 0#3 :=
  (OpcodeRow.covers_iff "NOP" 0#3 op 0x00#8 d).trans (and_iff_left BitVec.and_zero)

@[simp] theorem startRow_covers :
    OpcodeRow.covers ⟨"START", 0x100#11, 0x7FE#11⟩ (op ++ d) = true ↔ op = 1#3 ∧ d.extractLsb' 1 7 = 0#7 :=
  (OpcodeRow.covers_iff "START" 1#3 op 0xFE#8 d).trans (and_congr_right' (and_spareMask_eq_zero_iff d))

@[simp] theorem byteRow_covers : OpcodeRow.covers ⟨"BYTE", 0x200#11, 0x700#11⟩ (op ++ d) = true ↔ op = 2#3 :=
  (OpcodeRow.covers_iff "BYTE" 2#3 op 0x00#8 d).trans (and_iff_left BitVec.and_zero)

@[simp] theorem endRow_covers : OpcodeRow.covers ⟨"END", 0x300#11, 0x700#11⟩ (op ++ d) = true ↔ op = 3#3 :=
  (OpcodeRow.covers_iff "END" 3#3 op 0x00#8 d).trans (and_iff_left BitVec.and_zero)

end Rows

/-- The rows that cover a word name the command that the decoder reads in it, where it reads one. -/
theorem coveringRows_eq (w : CmdWord) : (opcodeTable.filter fun row => row.covers w).map OpcodeRow.mnemonic =
    ((decode w).instr?.map Instr.mnemonic).toList := by
  have hcase := decode_case w
  generalize decode w = x at hcase ⊢
  cases hcase with
  | command i hwf =>
    cases i with
    | nop d | byte d | endStream d =>
      simp [opcodeTable, encode, Instr.opcode, Instr.operand, Decoded.instr?, Instr.mnemonic]
    | start d =>
      have hspare : d.extractLsb' 1 7 = 0#7 := eq_of_beq hwf
      simp [opcodeTable, encode, Instr.opcode, Instr.operand, Decoded.instr?, Instr.mnemonic, hspare]
  | startOperand d h => simp [opcodeTable, Decoded.instr?, h]
  | opcode op d h =>
    obtain ⟨h0, h1, h2, h3⟩ := reservedOpcode_ne h
    simp [opcodeTable, Decoded.instr?, h0, h1, h2, h3]

/-! ### The kinds of the words, in the order of their numbers (R87) -/

/-- What the word of number `n` is: the mnemonic of its command, or none where it is reserved. -/
def wordKind (n : Nat) : Option String := (decode (BitVec.ofNat 11 n)).instr?.map Instr.mnemonic

/-- A word's number taken apart into opcode and operand. -/
theorem ofNat_eq_append (n : Nat) : BitVec.ofNat 11 n = BitVec.ofNat 3 (n / 256) ++ BitVec.ofNat 8 n := by
  apply BitVec.eq_of_toNat_eq
  rw [BitVec.toNat_append, ← Nat.shiftLeft_add_eq_or_of_lt (BitVec.isLt _), Nat.shiftLeft_eq]
  simp only [BitVec.toNat_ofNat]
  omega

theorem wordKind_command {n : Nat} {i : Instr} (hwf : i.wellFormed = true) (hop : BitVec.ofNat 3 (n / 256) = i.opcode)
    (hd : BitVec.ofNat 8 n = i.operand) : wordKind n = some i.mnemonic := by
  have hw : BitVec.ofNat 11 n = encode i := by rw [ofNat_eq_append, hop, hd, encode]
  rw [wordKind, hw, decode_encode hwf, Decoded.instr?, Option.map_some]

theorem wordKind_reserved {n : Nat} {why : ReservedWord}
    (h : decode (BitVec.ofNat 3 (n / 256) ++ BitVec.ofNat 8 n) = .reserved why) : wordKind n = none := by
  rw [wordKind, ofNat_eq_append, h, Decoded.instr?, Option.map_none]

section Kinds
variable {n : Nat}

theorem wordKind_nop (hn : n < 256) : wordKind n = some "NOP" := by
  have hop : n / 256 = 0 := by omega
  exact wordKind_command (i := .nop (.ofNat 8 n)) rfl (by rw [hop]; rfl) rfl

theorem wordKind_start (hn : n = 256 ∨ n = 257) : wordKind n = some "START" := by
  rcases hn with rfl | rfl
  · exact wordKind_command (i := .start 0x00) rfl rfl rfl
  · exact wordKind_command (i := .start 0x01) rfl rfl rfl

theorem wordKind_startOperand (hlo : 258 ≤ n) (hhi : n < 512) : wordKind n = none := by
  have hop : n / 256 = 1 := by omega
  have hspare : (BitVec.ofNat 8 n).extractLsb' 1 7 ≠ 0#7 := by
    rw [Ne, spareBits_eq_zero_iff]
    simp only [← BitVec.toNat_inj, BitVec.toNat_ofNat]
    omega
  exact wordKind_reserved (by rw [hop]; exact decode_startOperand hspare)

theorem wordKind_byte (hlo : 512 ≤ n) (hhi : n < 768) : wordKind n = some "BYTE" := by
  have hop : n / 256 = 2 := by omega
  exact wordKind_command (i := .byte (.ofNat 8 n)) rfl (by rw [hop]; rfl) rfl

theorem wordKind_endStream (hlo : 768 ≤ n) (hhi : n < 1024) : wordKind n = some "END" := by
  have hop : n / 256 = 3 := by omega
  exact wordKind_command (i := .endStream (.ofNat 8 n)) rfl (by rw [hop]; rfl) rfl

theorem wordKind_reservedOpcode (hlo : 1024 ≤ n) (hhi : n < 2048) : wordKind n = none := by
  have hop : 4#3 ≤ BitVec.ofNat 3 (n / 256) := by
    simp only [BitVec.le_def, BitVec.toNat_ofNat]
    omega
  exact wordKind_reserved (decode_reservedOpcode _ hop)

end Kinds

/-- Consecutive words that are all of one kind. -/
theorem map_wordKind_range' {lo k : Nat} {kind : Option String} (h : ∀ n, lo ≤ n → n < lo + k → wordKind n = kind) :
    (List.range' lo k).map wordKind = List.replicate k kind := by
  have hall : ∀ n ∈ List.range' lo k, wordKind n = kind := fun n hn => by
    obtain ⟨hlo, hhi⟩ := List.mem_range'_1.1 hn
    exact h n hlo hhi
  simpa only [List.length_range'] using List.map_eq_replicate_iff.2 hall

/-- The 2048 words in order: six blocks, each of one kind. -/
theorem map_wordKind_range : (List.range 2048).map wordKind =
    List.replicate 256 (some "NOP") ++ List.replicate 2 (some "START") ++ List.replicate 254 none ++
    List.replicate 256 (some "BYTE") ++ List.replicate 256 (some "END") ++ List.replicate 1024 none := by
  have hblocks : List.range 2048 = List.range' 0 256 ++ List.range' 256 2 ++ List.range' 258 254 ++ List.range' 512 256 ++
      List.range' 768 256 ++ List.range' 1024 1024 := by
    rw [List.range_eq_range', List.range'_append_1, List.range'_append_1, List.range'_append_1, List.range'_append_1,
      List.range'_append_1]
  simp only [hblocks, List.map_append]
  rw [map_wordKind_range' fun n _ hhi => wordKind_nop (by omega),
    map_wordKind_range' fun n hlo hhi => wordKind_start (by omega),
    map_wordKind_range' fun n hlo hhi => wordKind_startOperand hlo hhi,
    map_wordKind_range' fun n hlo hhi => wordKind_byte hlo hhi,
    map_wordKind_range' fun n hlo hhi => wordKind_endStream hlo hhi,
    map_wordKind_range' fun n hlo hhi => wordKind_reservedOpcode hlo hhi]

/-- How many of the 2048 words have a kind that meets `p`: the sum over the blocks. -/
theorem length_filter_wordKind (p : Option String → Bool) : ((List.range 2048).filter fun n => p (wordKind n)).length =
    (if p (some "NOP") then 256 else 0) + (if p (some "START") then 2 else 0) + (if p none then 254 else 0) +
    (if p (some "BYTE") then 256 else 0) + (if p (some "END") then 256 else 0) + (if p none then 1024 else 0) := by
  have hcount : ((List.range 2048).filter fun n => p (wordKind n)).length = ((List.range 2048).map wordKind).countP p := by
    rw [List.countP_map, List.countP_eq_length_filter]
    rfl
  rw [hcount, map_wordKind_range]
  simp only [List.countP_append, List.countP_replicate]

/-! ### The order of the bytes of a field (R93) -/

/-- Four bytes shifted in push out all that was there before (R93). -/
theorem shiftIn_four (r : Word) (b0 b1 b2 b3 : Byte) :
    shiftIn (shiftIn (shiftIn (shiftIn r b0) b1) b2) b3 = fold4 b0 b1 b2 b3 := by
  obtain ⟨-, -, three⟩ := partialFieldReads r b0 b1 b2
  have low : (r.extractLsb' 0 8 ++ b0 ++ b1 ++ b2).extractLsb' 0 24 = b0 ++ b1 ++ b2 := by
    rw [extractLsb'_append_byte 16, extractLsb'_append_byte 8, BitVec.extractLsb'_append_eq_right]
  rw [shiftIn_eq_append, three, low]
  rfl

/-- The fold with the shifts written out (R93): four shift-ins from 0. -/
theorem fold4_eq_or (b0 b1 b2 b3 : Byte) : fold4 b0 b1 b2 b3 =
    (b0.setWidth 32 <<< 24) ||| (b1.setWidth 32 <<< 16) ||| (b2.setWidth 32 <<< 8) ||| b3.setWidth 32 := by
  rw [← shiftIn_four 0#32]
  simp only [shiftIn, zext32, BitVec.shiftLeft_or_distrib, ← BitVec.shiftLeft_add, BitVec.zero_shiftLeft, BitVec.zero_or]

/-! ### The obligations -/

/-- Settles O3: the two directions of the inverse, by the cases of a command and of a word. -/
theorem decodeEncodeAgree : Obligations.DecodeEncodeAgree :=
  ⟨fun _ => decode_encode, fun _ _ => decode_command_inv⟩

/-- Settles O4: the covering rows are those of the command that the decoder reads. -/
theorem opcodeTableMatchesDecoder : Obligations.OpcodeTableMatchesDecoder := by
  intro w
  have hrows := coveringRows_eq w
  constructor
  · intro i h
    rw [hrows, h]; rfl
  · intro why h
    rw [h] at hrows
    exact List.map_eq_nil_iff.1 hrows

/-- Settles O2: the cascade by the decoder's equations, and the counts by the blocks of words of one kind. -/
theorem decodeFollowsOpcodeMap : Obligations.DecodeFollowsOpcodeMap := by
  refine ⟨fun op d => ⟨?nop, ?start, ?startOperand, ?byte, ?endStream, ?opcode⟩, ?commands, ?reserved⟩
  case nop =>
    rintro rfl
    exact decode_encode (i := .nop d) rfl
  case start =>
    rintro rfl hd
    exact decode_encode (i := .start d) (beq_iff_eq.2 ((spareBits_eq_zero_iff d).2 hd))
  case startOperand =>
    rintro rfl h0 h1
    have hspare : d.extractLsb' 1 7 ≠ 0#7 := fun h => ((spareBits_eq_zero_iff d).1 h).elim h0 h1
    exact ⟨_, decode_startOperand hspare⟩
  case byte =>
    rintro rfl
    exact decode_encode (i := .byte d) rfl
  case endStream =>
    rintro rfl
    exact decode_encode (i := .endStream d) rfl
  case opcode => exact fun hop => ⟨_, decode_reservedOpcode d hop⟩
  case commands =>
    have hcount (m : String) := length_filter_wordKind (· == some m)
    simp only [wordKind] at hcount
    simp [hcount]
  case reserved =>
    have hcount := length_filter_wordKind Option.isNone
    simpa [wordKind] using hcount

/-- Settles O1: the commands' words are encodings, and the others have spare bits or a reserved opcode. -/
theorem writtenWordsDecode : Obligations.WrittenWordsDecode :=
  ⟨decode_encode (i := .nop 0x00) rfl, decode_encode (i := .nop 0xFF) rfl, decode_encode (i := .start 0x00) rfl,
    decode_encode (i := .start 0x01) rfl, decode_encode (i := .byte 0x00) rfl, decode_encode (i := .byte 0xFF) rfl,
    decode_encode (i := .endStream 0x00) rfl, decode_encode (i := .endStream 0xA5) rfl,
    decode_startOperand (d := 0x02) (by decide), decode_startOperand (d := 0xFF) (by decide),
    decode_reservedOpcode (op := 4) 0x00 (by decide), decode_reservedOpcode (op := 7) 0xFF (by decide)⟩

/-- Settles O13: the operand is not legal, so `START` answers as a reserved word does. -/
theorem startWithSpareBitsIsProtocolError : Obligations.StartWithSpareBitsIsProtocolError := by
  intro s d hd
  have hspare : startSpareBitsZero d = false := beq_false_of_ne hd
  exact execStart_spare hspare s

/-- Settles O42: four shift-ins give the fold, and the fold is the rule's formula. -/
theorem fourBytesAssembleBigEndian : Obligations.FourBytesAssembleBigEndian :=
  ⟨fold4_eq_or, fun r b0 b1 b2 b3 => (shiftIn_four r b0 b1 b2 b3).trans (fold4_eq_or b0 b1 b2 b3), by decide, by decide,
    by decide⟩

end Sys2Proof.Machine

/-! PROOFS. The CRC unit (R100 to R107), and the checksum that the machine computes over the body of a frame, its type and
payload (R104, R107, R168). -/

namespace Sys2Proof.Machine

/-! ### The update as a loop, a bijection and a table look-up (R101, R103) -/

theorem crcShifts_eq_iterate (n : Nat) (c : Word) : crcShifts n c = crcShift^[n] c := by
  induction n generalizing c with
  | zero => rfl
  | succ n ih => exact ih (crcShift c)

/-- The zero byte leaves the accumulator as it is before the passes. -/
theorem crcUpd_zero (c : Word) : crcUpd c 0x00#8 = crcShifts 8 c :=
  congrArg (crcShifts 8) BitVec.xor_zero

/-- As long as the bits shifted out are clear, the polynomial is not used: the passes are one plain shift. -/
theorem crcShifts_of_low_clear {n : Nat} {c : Word} (h : ∀ i < n, c.getLsbD i = false) : crcShifts n c = c >>> n := by
  induction n generalizing c with
  | zero => exact (BitVec.ushiftRight_zero c).symm
  | succ n ih =>
    have hnext : ∀ i < n, (c >>> 1).getLsbD i = false := fun i hi => by
      rw [BitVec.getLsbD_ushiftRight]
      exact h (1 + i) (by omega)
    calc crcShifts (n + 1) c = crcShifts n (c >>> 1) := by rw [crcShifts, crcShift_of_bit0_clear (h 0 n.succ_pos)]
      _ = c >>> 1 >>> n := ih hnext
      _ = c >>> (n + 1) := by rw [← BitVec.shiftRight_add, Nat.add_comm]

/-- A word is its low byte and the rest. -/
theorem zext32_low_xor_high (v : Word) : zext32 (v.extractLsb' 0 8) ^^^ (v >>> 8 <<< 8) = v := by
  apply BitVec.eq_of_getLsbD_eq
  intro i hi
  by_cases h8 : i < 8
  · simp [zext32, hi, h8]
  · have hsum : 8 + (i - 8) = i := by omega
    simp [zext32, hi, h8, hsum]

/-- The byte that enters the update does not reach the part of the accumulator that is shifted through. -/
theorem xor_zext32_ushiftRight (c : Word) (b : Byte) : (c ^^^ zext32 b) >>> 8 = c >>> 8 := by
  apply BitVec.eq_of_getLsbD_eq
  intro i _
  simp [zext32]

/-- The eight passes on a word: its low byte selects the table entry, and the rest is shifted through (R103). -/
theorem crcShifts_eight_eq_table (v : Word) : crcShifts 8 v = crcTable (v.extractLsb' 0 8) ^^^ (v >>> 8) := by
  have hlow : crcTable (v.extractLsb' 0 8) = crcShifts 8 (zext32 (v.extractLsb' 0 8)) := crcUpd_zero _
  have hhigh : crcShifts 8 (v >>> 8 <<< 8) = v >>> 8 := by
    rw [crcShifts_of_low_clear fun i hi => by simp [hi]]
    apply BitVec.eq_of_getLsbD_eq
    intro i hi
    by_cases htop : 8 + i < 32
    · simp [htop]
    · simp [htop, BitVec.getLsbD_of_ge v (8 + i) (by omega)]
  calc crcShifts 8 v = crcShifts 8 (zext32 (v.extractLsb' 0 8) ^^^ (v >>> 8 <<< 8)) := by rw [zext32_low_xor_high]
    _ = crcTable (v.extractLsb' 0 8) ^^^ (v >>> 8) := by rw [crcShifts_xor, hlow, hhigh]

/-- Settles O45: a pass loses no bit, so the update is injective, and on finitely many words that makes it a bijection. -/
theorem crcUpdateIsBijection : Obligations.CrcUpdateIsBijection :=
  ⟨fun c b => crcShifts_eq_iterate 8 (c ^^^ zext32 b),
    fun _ => Function.Injective.bijective_of_finite fun _ _ => crcUpd_injective_left,
    fun c b => (crcUpd_zero (c ^^^ zext32 b)).symm⟩

/-- Settles O46: the table form for every accumulator and byte, and the listed entries computed. -/
theorem crcTableForm : Obligations.CrcTableForm := by
  refine ⟨fun c b => ?_, by decide, by decide, by decide, by decide, by decide, by decide⟩
  calc crcUpd c b = crcTable ((c ^^^ zext32 b).extractLsb' 0 8) ^^^ ((c ^^^ zext32 b) >>> 8) := crcShifts_eight_eq_table _
    _ = crcTable ((c ^^^ zext32 b).extractLsb' 0 8) ^^^ (c >>> 8) := by rw [xor_zext32_ushiftRight]

/-! ### Values and error detection (R100, R106, R107) -/

/-- Settles O47: the changed byte leaves another accumulator, and the same bytes after it keep the two apart. -/
theorem crcDetectsOneChangedByte : Obligations.CrcDetectsOneChangedByte := by
  intro before after b b' hne heq
  have hfold := crcFinal_injective heq
  simp only [crcFold_append, crcFold_cons] at hfold
  exact hne (crcUpd_injective_right (crcFold_injective_left hfold))

set_option maxRecDepth 20000 in
/-- Settles O44: each value computed by the loop of R101. -/
theorem crcKnownValues : Obligations.CrcKnownValues :=
  ⟨by decide, by decide, by decide, by decide, by decide, by decide⟩

/-! ### The checksum over the body of a frame (R104, R168) -/

/-- The parser stands inside a frame with `n` bytes of its type and payload still to come, and its checksum field after them. -/
inductive AwaitsBody (r : Regs) : Nat → Prop where
  /-- The rest of the type field, and the payload, which REM counts. -/
  | inType (n : Nat) (hp : r.phase = .type) (hi : r.idx ≤ 3#3) (hn : n + r.idx.toNat = 4 + r.rem.toNat) : AwaitsBody r n
  /-- REM bytes of the payload. -/
  | inData (hp : r.phase = .data) (hi : r.idx = 0#3) (hr : r.rem ≠ 0#32) : AwaitsBody r r.rem.toNat
  /-- Nothing: the checksum field comes next. -/
  | atChecksum (hp : r.phase = .crc) (hi : r.idx = 0#3) : AwaitsBody r 0

/-- With the body in, the parser is at the start of the checksum field. -/
theorem AwaitsBody.at_checksum {r : Regs} (h : AwaitsBody r 0) : r.phase = .crc ∧ r.idx = 0#3 := by
  generalize hz : 0 = n at h
  cases h with
  | inType _ hp hi hn => bv_omega
  | inData hp hi hr => bv_omega
  | atChecksum hp hi => exact ⟨hp, hi⟩

/-- A `BYTE` that the body awaits enters the checksum, and the body awaits one byte less (R138, R139). The cases of the other
phases contradict the phase at hand. -/
theorem ByteCase.body {b : Byte} {r r' : Regs} {e : Events} {n : Nat} (h : ByteCase b r r' e) (hr : AwaitsBody r (n + 1)) :
    AwaitsBody r' n ∧ r'.crcacc = crcUpd r.crcacc b := by
  generalize hk : n + 1 = k at hr
  cases hr with
  | inType _ hp hi hn =>
    cases h with
    | typeLastEmpty _ h3 h0 =>
      obtain rfl : n = 0 := by bv_omega
      exact ⟨.atChecksum rfl rfl, rfl⟩
    | typeLast _ h3 h0 =>
      obtain rfl : n = r.rem.toNat := by bv_omega
      exact ⟨.inData rfl rfl h0, rfl⟩
    | typeNext _ h3 =>
      have hidx : (r.idx + 1#3).toNat = r.idx.toNat + 1 := by bv_omega
      exact ⟨.inType n hp (Idx.succ_inField hi h3).1 (by simp [hidx]; omega), rfl⟩
    | _ => simp_all
  | inData hp hi h0 =>
    cases h with
    | dataLast _ h1 =>
      obtain rfl : n = 0 := by bv_omega
      exact ⟨.atChecksum rfl rfl, rfl⟩
    | dataNext _ h1 =>
      obtain rfl : n = (r.rem - 1#32).toNat := by bv_omega
      exact ⟨.inData hp hi (by bv_omega), rfl⟩
    | _ => simp_all
  | atChecksum => cases hk

/-- A run of bytes that the body awaits. -/
theorem run_body {s : State} {n : Nat} (m : List Byte) (h : AwaitsBody s.regs (m.length + n)) :
    ∃ t es, runWords (byteWords m) s = some (t, es) ∧ AwaitsBody t.regs n ∧ t.regs.crcacc = crcFold s.regs.crcacc m := by
  induction m generalizing s with
  | nil => exact ⟨s, [], runWords_nil s, by simpa using h, rfl⟩
  | cons b m ih =>
    obtain ⟨r, e, hexec, hcase⟩ := execByte_case b s
    have hlen : (b :: m).length + n = m.length + n + 1 := Nat.succ_add m.length n
    obtain ⟨hr, hacc⟩ := hcase.body (hlen ▸ h)
    obtain ⟨t, es, hrun, hrest, hfold⟩ := ih (s := { s with regs := r, ev := e }) hr
    exact ⟨t, _, runWords_byte hexec hrun, hrest, by rw [hfold, hacc, crcFold_cons]⟩

/-- `START 0`, a length field, and so many bytes that `n` of the body it announces are still to come. -/
theorem run_start_length_body {l : Word} {m : List Byte} {n : Nat} (hn : m.length + n = 4 + l.toNat) (s : State) :
    ∃ t es, runWords (startWord false :: byteWords (unfold4 l ++ m)) s = some (t, es) ∧ AwaitsBody t.regs n ∧
      crcFinal t.regs.crcacc = crc32 m := by
  have hstart := runWords_start false s
  have hlength := run_length (s := { s with regs := Regs.started false, ev := Events.none }) l rfl rfl
  obtain ⟨t, es, hbody, hrest, hacc⟩ := run_body
    (s := { s with regs := { Regs.started false with phase := .type, len := l, rem := l }, ev := Events.none }) (n := n) m
    (.inType _ rfl (show 0#3 ≤ 3#3 by decide) hn)
  exact ⟨t, _, runWords_append hstart (runBytes_append hlength hbody), hrest, congrArg crcFinal hacc⟩

/-- The body of a frame that fits is as long as its length field announces (R91). -/
theorem Frame.length_body {f : Frame} (hf : f.fits) : f.body.length = 4 + f.length.toNat := by
  rw [Frame.length, BitVec.toNat_ofNat, Nat.mod_eq_of_lt hf, Frame.body, List.length_append]
  rfl

/-- Settles O49: the accumulator is the fold over the bytes that are in, and a body that is all in leaves the parser at the
checksum field. -/
theorem checksumReadableDuringFrame : Obligations.ChecksumReadableDuringFrame := by
  intro f k s hf hk
  have hbody := f.length_body hf
  have hn : (f.body.take k).length + (f.body.length - k) = 4 + f.length.toNat := by
    rw [List.length_take_of_le hk]; omega
  obtain ⟨t, es, hrun, hrest, hsum⟩ := run_start_length_body hn s
  refine ⟨t, es, hrun, t.rdData_crcacc.trans hsum, ?_⟩
  rintro rfl
  rw [Nat.sub_self] at hrest
  exact hrest.at_checksum

/-- A body of the announced length whose checksum is not the stored one ends the frame in ChecksumMismatch (R140). -/
theorem run_frame_mismatch {l stored : Word} {m : List Byte} (hm : m.length = 4 + l.toNat) (hne : stored ≠ crc32 m)
    (s : State) :
    ∃ t es, runWords (startWord false :: byteWords (unfold4 l ++ m ++ unfold4 stored)) s = some (t, es) ∧
      t.regs.phase = .err ∧ t.regs.err = .checksumMismatch := by
  obtain ⟨t, es, hrun, hrest, hsum⟩ := run_start_length_body (n := 0) hm s
  obtain ⟨hp, hi⟩ := hrest.at_checksum
  have hfield := run_checksum stored hp hi
  rw [hsum, if_neg hne] at hfield
  rw [byteWords_append, ← List.cons_append]
  exact ⟨_, _, runWords_append hrun hfield, rfl, rfl⟩

/-- Settles O54: the changed body is as long as the old one, and its checksum is another (R107). -/
theorem changedByteFailsFrame : Obligations.ChangedByteFailsFrame := by
  intro f before after b b' s hf hbody hne
  have hlen : (before ++ b' :: after).length = 4 + f.length.toNat := by
    rw [← f.length_body hf, hbody, List.length_append, List.length_append]
    rfl
  have hsum : crc32 f.body ≠ crc32 (before ++ b' :: after) := by
    rw [hbody]
    exact crcDetectsOneChangedByte before after b b' hne
  exact run_frame_mismatch hlen hsum s

end Sys2Proof.Machine

/-! PROOFS. The type code: its fold and unfold (R115, R116), the case bit of a letter (R123) and the flags of the source's
example types (R126). -/

namespace Sys2Proof.Machine

/-! ### Fold and unfold (R115, R116) -/

section Bytes
variable (b0 b1 b2 b3 : Byte)

@[simp] theorem byte0_fold4 : byte0 (fold4 b0 b1 b2 b3) = b0 := by
  rw [byte0, fold4, BitVec.extractLsb'_append_eq_of_le (by decide), BitVec.extractLsb'_append_eq_of_le (by decide),
    BitVec.extractLsb'_append_eq_left]

@[simp] theorem byte1_fold4 : byte1 (fold4 b0 b1 b2 b3) = b1 := by
  rw [byte1, fold4, BitVec.extractLsb'_append_eq_of_le (by decide), BitVec.extractLsb'_append_eq_of_le (by decide),
    BitVec.extractLsb'_append_eq_right]

@[simp] theorem byte2_fold4 : byte2 (fold4 b0 b1 b2 b3) = b2 := by
  rw [byte2, fold4, BitVec.extractLsb'_append_eq_of_le (by decide), BitVec.extractLsb'_append_eq_right]

@[simp] theorem byte3_fold4 : byte3 (fold4 b0 b1 b2 b3) = b3 := by
  rw [byte3, fold4, BitVec.extractLsb'_append_eq_right]

/-- Unfolding gives back the four bytes that were folded. -/
theorem unfold4_fold4 : unfold4 (fold4 b0 b1 b2 b3) = [b0, b1, b2, b3] := by
  rw [unfold4, byte0_fold4, byte1_fold4, byte2_fold4, byte3_fold4]

end Bytes

/-- Folding a word's own bytes gives the word: both are what four shift-ins leave (R93). -/
theorem fold4_bytes (t : Word) : fold4 (byte0 t) (byte1 t) (byte2 t) (byte3 t) = t :=
  calc fold4 (byte0 t) (byte1 t) (byte2 t) (byte3 t)
    _ = shiftIn (shiftIn (shiftIn (shiftIn 0#32 (byte0 t)) (byte1 t)) (byte2 t)) (byte3 t) := (shiftIn_four ..).symm
    _ = t := shiftIn_bytes 0#32 t

/-- Settles O41: each direction is one of the two cancellation lemmas. -/
theorem foldUnfoldInverse : Obligations.FoldUnfoldInverse :=
  ⟨unfold4_fold4, fold4_bytes⟩

/-! ### The case bit of a letter (R123) -/

/-- Bit 5 of a byte is the parity of its block of 32 values. -/
theorem getLsbD_five (b : Byte) : b.getLsbD 5 = decide (b.toNat / 32 % 2 = 1) :=
  Nat.testBit_eq_decide_div_mod_eq

/-- The upper-case letters lie in the block 0x40 to 0x5F, where bit 5 is 0. -/
theorem caseBit_upper {b : Byte} (hlo : 0x41#8 ≤ b) (hhi : b ≤ 0x5A#8) : b.getLsbD 5 = false := by
  have hblock : b.toNat / 32 = 2 := by bv_omega
  rw [getLsbD_five, hblock]
  rfl

/-- The lower-case letters lie in the block 0x60 to 0x7F, where bit 5 is 1. -/
theorem caseBit_lower {b : Byte} (hlo : 0x61#8 ≤ b) (hhi : b ≤ 0x7A#8) : b.getLsbD 5 = true := by
  have hblock : b.toNat / 32 = 3 := by bv_omega
  rw [getLsbD_five, hblock]
  rfl

/-- Settles O40: by the two ranges of letters, each of which fixes the bit. -/
theorem caseBitOfLetters : Obligations.CaseBitOfLetters := by
  intro b hb
  obtain ⟨hlo, hhi⟩ | ⟨hlo, hhi⟩ := (alpha_iff b).1 hb
  case inl => exact iff_of_true (caseBit_upper hlo hhi) ⟨hlo, hhi⟩
  case inr =>
    have hbit : ¬ b.getLsbD 5 = false := by simp [caseBit_lower hlo hhi]
    have hrange : ¬ (0x41#8 ≤ b ∧ b ≤ 0x5A#8) := by bv_omega
    exact iff_of_false hbit hrange

/-! ### The example types (R126) -/

/-- Settles O39: TFLAGS evaluated at the six closed words. -/
theorem typeFlagExamples : Obligations.TypeFlagExamples := by
  unfold Obligations.TypeFlagExamples
  decide

end Sys2Proof.Machine

/-! PROOFS. `BYTE` in each phase (R135 to R142): its next states, and what it never changes. -/

namespace Sys2Proof.Machine

/-! ### From the cases of `BYTE` to its next states -/

/-- The case that the registers and the byte meet gives the whole next state. -/
theorem exec_byte_of_case {b : Byte} {s : State} {r : Regs} {e : Events} (h : ByteCase b s.regs r e) :
    exec (.byte b) s = .next { s with regs := r, ev := e } := by
  obtain ⟨r', e', hexec, hcase⟩ := execByte_case b s
  obtain ⟨rfl, rfl⟩ := h.unique hcase
  exact hexec

/-- `raise` with the phase that it records named (R180). -/
theorem Regs.raise_of_phase {r : Regs} {p : Phase} (h : r.phase = p) (e : FrameError) :
    r.raise e = { r with phase := .err, err := e.errCode, ephase := p } := by
  rw [Regs.raise, h]

/-- The signature byte at a position given as a number (R47). -/
theorem sigRomAt_ofNat {i : Nat} (h : i < 8) : sigRomAt (BitVec.ofNat 3 i) = sigRom.getD i 0x00#8 := by
  rw [sigRomAt, BitVec.toNat_ofNat, Nat.mod_eq_of_lt h]

/-! ### What `BYTE` leaves alone, case by case (R135) -/

section Frame
variable {b : Byte} {r r' : Regs} {e : Events} (h : ByteCase b r r' e)
include h

theorem ByteCase.perr_written (hne : r'.perr ≠ r.perr) : r.phase = .idle ∨ r.phase = .done := by
  cases h with
  | inactive hp => exact hp
  | _ => exact absurd rfl hne

theorem ByteCase.err_kept (he : e.err = false) : r'.err = r.err ∧ r'.ephase = r.ephase := by
  cases h with
  | sigBad | crcBad => cases he
  | _ => exact ⟨rfl, rfl⟩

theorem ByteCase.err_raised (he : e.err = true) :
    (r'.err = .badSignature ∧ r.phase = .sig) ∨ (r'.err = .checksumMismatch ∧ r.phase = .crc ∧ r.idx = 3#3) := by
  cases h with
  | sigBad hp => exact .inl ⟨rfl, hp⟩
  | crcBad hp hi => exact .inr ⟨rfl, hp, hi⟩
  | _ => cases he

end Frame

end Sys2Proof.Machine

namespace Sys2Proof.Proofs

open Sys2Proof.Machine

/-! ### The obligations on `BYTE` -/

/-- Settles O15: the three cases of SIG, with the signature byte read at the number of the index. -/
theorem byteInSig : Obligations.ByteInSig := by
  intro b s i hp hi hidx expected
  have hrom : sigRomAt s.regs.idx = expected := by rw [hidx]; exact sigRomAt_ofNat hi
  refine ⟨fun hb hlt => ?next, fun hb hlast => ?last, fun hb => ?bad⟩
  case next =>
    have hne : s.regs.idx ≠ 7#3 := by rw [hidx]; bv_omega
    have hsucc : BitVec.ofNat 3 (i + 1) = s.regs.idx + 1#3 := by rw [hidx]; exact BitVec.ofNat_add i 1
    rw [hsucc]
    exact exec_byte_of_case (.sigNext hp (hb.trans hrom.symm) hne)
  case last =>
    exact exec_byte_of_case (.sigLast hp (hb.trans hrom.symm) (by rw [hidx, hlast]))
  case bad =>
    have hcase := ByteCase.sigBad hp (hrom ▸ hb)
    rw [Regs.raise_of_phase hp] at hcase
    exact exec_byte_of_case hcase

/-- Settles O16: the two cases of LEN. -/
theorem byteInLen : Obligations.ByteInLen := fun _ _ hp =>
  ⟨fun hi => exec_byte_of_case (.lenNext hp (BitVec.ne_of_lt hi)), fun hi => exec_byte_of_case (.lenLast hp hi)⟩

/-- Settles O17: the three cases of TYPE; at the last byte REM decides between CRC and DATA. -/
theorem byteInType : Obligations.ByteInType := by
  refine fun b s hp => ⟨fun hi => exec_byte_of_case (.typeNext hp (BitVec.ne_of_lt hi)), fun hi => ?_⟩
  by_cases hr : s.regs.rem = 0#32
  · rw [if_pos hr]
    exact exec_byte_of_case (.typeLastEmpty hp hi hr)
  · rw [if_neg hr]
    exact exec_byte_of_case (.typeLast hp hi hr)

/-- Settles O18: the two cases of DATA; the last byte takes REM from 1 to 0. -/
theorem byteInData : Obligations.ByteInData := by
  refine fun b s hp _ => ⟨fun hr => exec_byte_of_case (.dataNext hp (BitVec.ne_of_lt hr).symm), fun hr => ?_⟩
  have hcase := ByteCase.dataLast (b := b) hp hr
  rw [hr] at hcase
  exact exec_byte_of_case hcase

/-- Settles O19: the three cases of CRC. -/
theorem byteInCrc : Obligations.ByteInCrc := by
  refine fun b s hp => ⟨fun hi => exec_byte_of_case (.crcNext hp (BitVec.ne_of_lt hi)), fun hi hc => ?ok, fun hi hc => ?bad⟩
  case ok =>
    have hcount : (if s.regs.nchunk = 0xFFFFFFFF#32 then 0xFFFFFFFF#32 else s.regs.nchunk + 1#32) = satInc32 s.regs.nchunk :=
      ite_congr rfl Eq.symm fun _ => rfl
    rw [hcount]
    exact exec_byte_of_case (.crcOk hp hi hc)
  case bad =>
    have hcase := ByteCase.crcBad hp hi hc
    rw [Regs.raise_of_phase (r := { s.regs with crcrx := shiftIn s.regs.crcrx b }) hp] at hcase
    exact exec_byte_of_case hcase

/-- Settles O20: the two cases outside the active phases. -/
theorem byteOutsideParse : Obligations.ByteOutsideParse := fun _ _ =>
  ⟨fun hp => exec_byte_of_case (.inactive hp), fun hp => exec_byte_of_case (.ignored hp)⟩

/-- Settles O28: each clause is read off the cases of `BYTE`. -/
theorem byteFrame : Obligations.ByteFrame := by
  intro b s t h
  obtain ⟨hport, hcase⟩ := execByte_inv h
  exact ⟨hcase.sigm_eq, hport, hcase.perr_written, fun hne => (hcase.nchunk_written hne).1, hcase.err_kept, hcase.err_raised⟩

end Sys2Proof.Proofs

/-! PROOFS. Frames and streams (R143, R147): the walk over a whole frame, over whole validated frames, and the ways in which a
stream ends. -/

namespace Sys2Proof.Machine

/-! ### One frame (R143) -/

/-- The registers `r` of the frame boundary when the length, the type and the payload of `f` are in (R137 to R139). -/
def Regs.withBody (r : Regs) (f : Frame) : Regs :=
  { r with phase := .crc, idx := 0#3, len := f.length, type := f.type, rem := 0#32, crcacc := crcFinal (crc32 f.body) }

/-- The registers when the right checksum is in too: the boundary again, with one chunk more (R140). -/
def Regs.afterFrame (r : Regs) (f : Frame) : Regs :=
  { r.withBody f with phase := .len, crcrx := crc32 f.body, nchunk := satInc32 r.nchunk }

/-- The registers when a wrong checksum is in (R140, R178). -/
def Regs.afterBadFrame (r : Regs) (f : Frame) (stored : Word) : Regs :=
  { r.withBody f with phase := .err, idx := 3#3, crcrx := stored, err := .checksumMismatch, ephase := .crc }

/-- The computed checksum with the body in: that of the frame (R102). -/
theorem Regs.crcFinal_withBody (r : Regs) (f : Frame) : crcFinal (r.withBody f).crcacc = crc32 f.body :=
  crcFinal_crcFinal _

section Frame
variable {f : Frame} {s : State} (hf : f.fits) (hp : s.regs.phase = .len) (hi : s.regs.idx = 0#3)
include hf hp hi

/-- From the frame boundary to the start of the checksum field. -/
theorem run_frameBody : ∃ e, runWords (byteWords (unfold4 f.length ++ f.body)) s =
    some ({ s with regs := s.regs.withBody f, ev := e },
      List.replicate 7 Events.none ++ [Events.emitHdr] ++ payloadEvents f.payload) := by
  have hlength := run_length f.length hp hi
  have htype := run_type (s := { s with regs := { s.regs with phase := .type, idx := 0#3, len := f.length, rem := f.length
                                                              crcacc := crcInit }
                                        ev := Events.none }) f.type rfl rfl
  obtain ⟨e, hpayload⟩ := run_payload'
    (s := { s with regs := { s.regs with phase := if f.length = 0#32 then .crc else .data, idx := 0#3, len := f.length
                                         type := f.type, rem := f.length, crcacc := crcFold crcInit (unfold4 f.type) }
                   ev := Events.emitHdr }) f.payload rfl rfl rfl hf
  have hbody := runBytes_append hlength (runBytes_append htype hpayload)
  rw [Regs.withBody, crc32, crcFinal_crcFinal, Frame.body, crcFold_append]
  exact ⟨e, hbody⟩

/-- A frame with the right checksum. -/
theorem run_frame : runWords (byteWords f.bytes) s =
    some ({ s with regs := s.regs.afterFrame f, ev := Events.emitOk }, f.events Events.emitOk) := by
  obtain ⟨e, hbody⟩ := run_frameBody hf hp hi
  have hfield := run_checksum (s := { s with regs := s.regs.withBody f, ev := e }) (crc32 f.body) rfl rfl
  rw [if_pos (s.regs.crcFinal_withBody f).symm] at hfield
  rw [Frame.events, List.append_assoc]
  exact runBytes_append hbody hfield

/-- A frame with a wrong checksum. -/
theorem run_badFrame {stored : Word} (hne : stored ≠ crc32 f.body) : runWords (byteWords (f.bytesWith stored)) s =
    some ({ s with regs := s.regs.afterBadFrame f stored, ev := Events.emitErr }, f.events Events.emitErr) := by
  obtain ⟨e, hbody⟩ := run_frameBody hf hp hi
  have hfield := run_checksum (s := { s with regs := s.regs.withBody f, ev := e }) stored rfl rfl
  rw [if_neg (hne.trans_eq (s.regs.crcFinal_withBody f).symm)] at hfield
  rw [Frame.events, List.append_assoc]
  exact runBytes_append hbody hfield

end Frame

/-- The three fields of a frame beside its payload take twelve bytes. -/
theorem Frame.length_bytesWith (f : Frame) (stored : Word) : (f.bytesWith stored).length = 12 + f.payload.length := by
  simp [Frame.bytesWith, Frame.body, unfold4]
  omega

/-! ### Whole validated frames (R89, R147) -/

/-- The parser stands at the frame boundary of a stream begun with `START sig`, after `k` validated chunks and without an
error. -/
structure Regs.AtBoundary (sig : Bool) (k : Nat) (r : Regs) : Prop where
  phase : r.phase = .len
  idx : r.idx = 0#3
  sigm : r.sigm = sig
  nchunk : r.nchunk = nchunkOf k
  err : r.err = .noError
  perr : r.perr = false

theorem Regs.AtBoundary.afterFrame {sig : Bool} {k : Nat} {r : Regs} (h : r.AtBoundary sig k) (f : Frame) :
    (r.afterFrame f).AtBoundary sig (k + 1) :=
  { h with phase := rfl, idx := rfl, nchunk := by rw [← satInc32_nchunkOf, ← h.nchunk]; rfl }

/-- `START`, and the signature where the mode asks for it, lead to the boundary from any state (R162, R136). -/
theorem run_signatureStage (sig : Bool) (s : State) :
    ∃ t, runWords (startWord sig :: byteWords (sigBytes sig)) s =
        some (t, Events.none :: (sigBytes sig).map fun _ => Events.none) ∧
      t.regs.AtBoundary sig 0 ∧ t.port = s.port := by
  have hstart := runWords_start sig s
  cases sig with
  | false => exact ⟨_, hstart, ⟨rfl, rfl, rfl, rfl, rfl, rfl⟩, rfl⟩
  | true =>
    have hsig := run_signature (s := { s with regs := Regs.started true, ev := Events.none }) rfl rfl
    exact ⟨_, runWords_append hstart hsig, ⟨rfl, rfl, rfl, rfl, rfl, rfl⟩, rfl⟩

/-- From boundary to boundary over any number of frames, each counted and with its events. -/
theorem run_frames {sig : Bool} {fs : List Frame} (hfs : ∀ f ∈ fs, f.fits) {k : Nat} {s : State}
    (hs : s.regs.AtBoundary sig k) :
    ∃ t, runWords (byteWords (fs.flatMap Frame.bytes)) s = some (t, fs.flatMap fun f => f.events Events.emitOk) ∧
      t.regs.AtBoundary sig (k + fs.length) ∧ t.port = s.port := by
  induction fs generalizing k s with
  | nil => exact ⟨s, runWords_nil s, hs, rfl⟩
  | cons f fs ih =>
    obtain ⟨hf, hrest⟩ := List.forall_mem_cons.1 hfs
    have hframe := run_frame hf hs.phase hs.idx
    obtain ⟨t, hrun, ht, hport⟩ := ih hrest (s := { s with regs := s.regs.afterFrame f, ev := Events.emitOk })
      (hs.afterFrame f)
    refine ⟨t, runBytes_append hframe hrun, ?_, hport⟩
    rwa [List.length_cons, Nat.add_comm fs.length 1, ← Nat.add_assoc]

/-- A stream of whole validated frames, up to the boundary after the last. -/
theorem run_goodStream (sig : Bool) {fs : List Frame} (hfs : ∀ f ∈ fs, f.fits) (s : State) :
    ∃ t, runWords (startWord sig :: byteWords (streamBytes sig fs)) s = some (t, streamEvents sig fs) ∧
      t.regs.AtBoundary sig fs.length ∧ t.port = s.port := by
  obtain ⟨u, hstage, hu, huport⟩ := run_signatureStage sig s
  obtain ⟨t, hframes, ht, hport⟩ := run_frames hfs hu
  rw [streamBytes, byteWords_append]
  exact ⟨t, runWords_append hstage hframes, Nat.zero_add fs.length ▸ ht, hport.trans huport⟩

/-! ### The end of a stream (R97, R163) -/

/-- A complete parse: the bytes are run up to `t`, and `END` does what its case says. -/
theorem run_parse {sig : Bool} {buf : List Byte} {s t : State} {es : List Events} {r : Regs} {e : Events}
    (hrun : runWords (startWord sig :: byteWords buf) s = some (t, es)) (hend : EndCase t.regs r e) :
    runWords (parseWords sig buf) s = some ({ t with regs := r, ev := e }, es ++ [e]) := by
  obtain ⟨r', e', hexec, hcase⟩ := execEndStream_case 0x00#8 t
  obtain ⟨rfl, rfl⟩ := hend.unique hcase
  exact runWords_append hrun (runWords_end hexec)

/-- More of the stream after `START` and its first part. -/
theorem run_start_append {sig : Bool} {m m' : List Byte} {s t u : State} {es fs : List Events}
    (h1 : runWords (startWord sig :: byteWords m) s = some (t, es)) (h2 : runWords (byteWords m') t = some (u, fs)) :
    runWords (startWord sig :: byteWords (m ++ m')) s = some (u, es ++ fs) := by
  rw [byteWords_append]; exact runWords_append h1 h2

/-- In ERR every byte is discarded, whatever the last event was (R142). -/
theorem run_discarded {s : State} (m : List Byte) (hp : s.regs.phase = .err) :
    ∃ e, runWords (byteWords m) s = some ({ s with ev := e }, List.replicate m.length Events.none) := by
  cases m with
  | nil => exact ⟨s.ev, runWords_nil s⟩
  | cons b m => exact ⟨Events.none, runWords_byte (execByte_err hp) (run_discard m hp rfl)⟩

/-! ### A stream that does not begin with the signature (R147 (a), R176) -/

/-- The error that R176 records. -/
def Regs.BadSignature (r : Regs) : Prop := r.phase = .err ∧ r.err = .badSignature ∧ r.ephase = .sig

/-- Nothing of a frame is in the event record: no `hdr`, no payload and no `ok`. -/
def Events.NoFrame (e : Events) : Prop := e.hdr = false ∧ e.plValid = false ∧ e.ok = false

theorem Events.none_noFrame : Events.none.NoFrame := ⟨rfl, rfl, rfl⟩
theorem Events.emitErr_noFrame : Events.emitErr.NoFrame := ⟨rfl, rfl, rfl⟩

/-- The rest of the signature from a position: the byte there, and the rest after it. -/
theorem drop_sigRom (i : Idx) : sigRom.drop i.toNat = sigRomAt i :: sigRom.drop (i.toNat + 1) := by
  revert i
  decide

/-- Bytes in SIG that do not bring the whole rest of the signature leave the parser in SIG or in BadSignature. -/
theorem run_notSignature {m : List Byte} {s : State} (hp : s.regs.phase = .sig)
    (hm : ¬ sigRom.drop s.regs.idx.toNat <+: m) :
    ∃ t es, runWords (byteWords m) s = some (t, es) ∧ (t.regs.phase = .sig ∨ t.regs.BadSignature) ∧ ∀ e ∈ es, e.NoFrame := by
  induction m generalizing s with
  | nil => exact ⟨s, [], runWords_nil s, .inl hp, by simp⟩
  | cons b m ih =>
    obtain ⟨r, e, hexec, hcase⟩ := execByte_case b s
    rw [drop_sigRom, List.cons_prefix_cons] at hm
    cases hcase with
    | sigLast _ hb h7 => simp [hb, h7, sigRom] at hm
    | sigNext _ hb h7 =>
      have hidx : (s.regs.idx + 1#3).toNat = s.regs.idx.toNat + 1 := by bv_omega
      obtain ⟨t, es, hrun, ht, hes⟩ := ih (s := { s with regs := s.regs.nextByte, ev := Events.none }) hp
        (by rw [Regs.nextByte_idx, hidx]; exact fun h => hm ⟨hb.symm, h⟩)
      exact ⟨t, _, runWords_byte hexec hrun, ht, List.forall_mem_cons.2 ⟨Events.none_noFrame, hes⟩⟩
    | sigBad =>
      obtain ⟨_, hrun⟩ := run_discarded (s := { s with regs := s.regs.raise .badSignature, ev := Events.emitErr }) m rfl
      refine ⟨_, _, runWords_byte hexec hrun, .inr ⟨rfl, rfl, hp⟩, List.forall_mem_cons.2 ⟨Events.emitErr_noFrame, ?_⟩⟩
      exact fun e' he' => List.eq_of_mem_replicate he' ▸ Events.none_noFrame
    | _ => simp_all

/-- In SIG `END` raises BadSignature, and after that error it does nothing (R163). -/
theorem EndCase.badSignature {r : Regs} (h : r.phase = .sig ∨ r.BadSignature) :
    ∃ r' e, EndCase r r' e ∧ r'.BadSignature ∧ e.NoFrame := by
  rcases h with hp | hbad
  · exact ⟨_, _, .inSig hp, ⟨rfl, rfl, hp⟩, Events.emitErr_noFrame⟩
  · exact ⟨_, _, .ignored hbad.1, hbad, Events.none_noFrame⟩

/-! ### A rest that ends within a frame (R147 (d), R177) -/

/-- The parser has begun a frame, and the next `n` bytes do not finish it. -/
inductive MidFrame (r : Regs) (n : Nat) : Prop where
  | inLength (hp : r.phase = .len) (hi : r.idx ≠ 0#3) (hn : r.idx.toNat + n ≤ 3) : MidFrame r n
  | inBody (k : Nat) (h : AwaitsBody r (k + 1)) (hn : n ≤ k + 4) : MidFrame r n
  | inChecksum (hp : r.phase = .crc) (hn : r.idx.toNat + n ≤ 3) : MidFrame r n

/-- A body of `k` bytes and three bytes of the checksum field do not finish a frame. -/
theorem AwaitsBody.midFrame {r : Regs} {k n : Nat} (h : AwaitsBody r k) (hn : n ≤ k + 3) : MidFrame r n := by
  cases k with
  | zero =>
    obtain ⟨hp, hi⟩ := h.at_checksum
    exact .inChecksum hp (by rw [hi]; simpa using hn)
  | succ k => exact .inBody k h hn

/-- While bytes of the body are awaited, the parser is in TYPE or in DATA. -/
theorem AwaitsBody.phase {r : Regs} {k : Nat} (h : AwaitsBody r (k + 1)) : r.phase = .type ∨ r.phase = .data := by
  generalize hk : k + 1 = n at h
  cases h with
  | inType _ hp => exact .inl hp
  | inData hp => exact .inr hp
  | atChecksum => cases hk

/-- The step has no outcome for a frame: neither `ok` nor `err`, and the same count of chunks. -/
def NoVerdict (r r' : Regs) (e : Events) : Prop := e.ok = false ∧ e.err = false ∧ r'.nchunk = r.nchunk

theorem ByteCase.noVerdict {b : Byte} {r r' : Regs} {e : Events} (h : ByteCase b r r' e) (hsig : r.phase ≠ .sig)
    (hcrc : r.phase = .crc → r.idx ≠ 3#3) : NoVerdict r r' e := by
  cases h with
  | sigBad hp => exact absurd hp hsig
  | crcOk hp hi | crcBad hp hi => exact absurd hi (hcrc hp)
  | _ => exact ⟨rfl, rfl, rfl⟩

/-- The index counts on below the last byte of a field. -/
theorem Idx.succ_of_lt_three {i : Idx} (h : i.toNat < 3) : i ≠ 3#3 ∧ i + 1#3 ≠ 0#3 ∧ (i + 1#3).toNat = i.toNat + 1 := by
  bv_omega

/-- A byte within a frame leaves one byte less that does not finish it, and no verdict. -/
theorem ByteCase.midFrame {b : Byte} {r r' : Regs} {e : Events} {n : Nat} (h : ByteCase b r r' e)
    (hr : MidFrame r (n + 1)) : MidFrame r' n ∧ NoVerdict r r' e := by
  cases hr with
  | inLength hp hi hn =>
    obtain ⟨hne, hpos, hsucc⟩ := Idx.succ_of_lt_three (show r.idx.toNat < 3 by omega)
    refine ⟨?_, h.noVerdict (by simp [hp]) (by simp [hp])⟩
    cases h with
    | lenNext => exact .inLength hp hpos (by simp [hsucc]; omega)
    | _ => simp_all
  | inBody k hbody hn =>
    obtain ⟨hrest, -⟩ := h.body hbody
    have hmid : MidFrame r' n := hrest.midFrame (by omega)
    rcases hbody.phase with hp | hp <;> exact ⟨hmid, h.noVerdict (by simp [hp]) (by simp [hp])⟩
  | inChecksum hp hn =>
    obtain ⟨hne, -, hsucc⟩ := Idx.succ_of_lt_three (show r.idx.toNat < 3 by omega)
    refine ⟨?_, h.noVerdict (by simp [hp]) (fun _ => hne)⟩
    cases h with
    | crcNext => exact .inChecksum hp (by simp [hsucc]; omega)
    | _ => simp_all

/-- Within a frame `END` raises Truncated (R163, R177). -/
theorem MidFrame.endCase {r : Regs} {n : Nat} (h : MidFrame r n) : EndCase r (r.raise .truncated) Events.emitErr := by
  cases h with
  | inLength hp hi => exact .inLen hp hi
  | inBody _ h => exact .inFrame (h.phase.imp_right .inl)
  | inChecksum hp => exact .inFrame (.inr (.inr hp))

/-- The run over `m` from `s` ends within a frame, with no verdict on the way. -/
def RunsIntoFrame (s : State) (m : List Byte) : Prop :=
  ∃ t es, runWords (byteWords m) s = some (t, es) ∧ es.length = m.length ∧ (∀ e ∈ es, e.ok = false ∧ e.err = false) ∧
    MidFrame t.regs 0 ∧ t.regs.nchunk = s.regs.nchunk

theorem RunsIntoFrame.cons {b : Byte} {m : List Byte} {s t : State} (hb : execByte b s = .next t)
    (hv : NoVerdict s.regs t.regs t.ev) (h : RunsIntoFrame t m) : RunsIntoFrame s (b :: m) := by
  obtain ⟨hok, herr, hcount⟩ := hv
  obtain ⟨u, es, hrun, hlen, hes, hmid, hcount'⟩ := h
  exact ⟨u, _, runWords_byte hb hrun, congrArg Nat.succ hlen, List.forall_mem_cons.2 ⟨⟨hok, herr⟩, hes⟩, hmid,
    hcount'.trans hcount⟩

/-- Bytes that do not finish the frame begun. -/
theorem MidFrame.run {m : List Byte} {s : State} (h : MidFrame s.regs m.length) : RunsIntoFrame s m := by
  induction m generalizing s with
  | nil => exact ⟨s, [], runWords_nil s, rfl, by simp, h, rfl⟩
  | cons b m ih =>
    obtain ⟨r, e, hexec, hcase⟩ := execByte_case b s
    obtain ⟨hmid, hv⟩ := hcase.midFrame h
    exact .cons hexec hv (ih hmid)

section Boundary
variable {s : State} (hp : s.regs.phase = .len) (hi : s.regs.idx = 0#3)
include hp hi

/-- One to three bytes from the boundary: the length field is not full. -/
theorem run_shortLength {m : List Byte} (hne : m ≠ []) (hm : m.length < 4) : RunsIntoFrame s m := by
  obtain ⟨b, m, rfl⟩ := List.exists_cons_of_ne_nil hne
  have hcase : ByteCase b s.regs { s.regs with len := shiftIn s.regs.len b }.nextByte Events.none :=
    .lenNext hp (by simp [hi])
  have hmid : MidFrame { s.regs with len := shiftIn s.regs.len b }.nextByte m.length :=
    .inLength hp (by simp [hi]) (by simp [hi] at hm ⊢; omega)
  exact .cons (exec_byte_of_case hcase) (hcase.noVerdict (by simp [hp]) (by simp [hp])) (MidFrame.run hmid)

/-- From the boundary a length field, and fewer bytes than it announces. -/
theorem run_shortFrame {l : Word} {m : List Byte} (hm : m.length < 8 + l.toNat) : RunsIntoFrame s (unfold4 l ++ m) := by
  have hlength := run_length l hp hi
  have hbody : AwaitsBody { s.regs with phase := .type, idx := 0#3, len := l, rem := l, crcacc := crcInit } (4 + l.toNat) :=
    .inType _ rfl (show 0#3 ≤ 3#3 by decide) rfl
  have hmid := hbody.midFrame (n := m.length) (by omega)
  obtain ⟨t, es, hrun, hlen, hes, ht, hcount⟩ := MidFrame.run (s := { s with regs := _, ev := Events.none }) hmid
  refine ⟨t, _, runBytes_append hlength hrun, ?_, List.forall_mem_append.2 ⟨?_, hes⟩, ht, hcount⟩
  · rw [List.length_append, List.length_append, hlen]; rfl
  · exact fun e he => List.eq_of_mem_replicate he ▸ ⟨rfl, rfl⟩

end Boundary

end Sys2Proof.Machine

namespace Sys2Proof.Proofs

open Sys2Proof.Machine

/-! ### The obligations on frames and streams -/

/-- Settles O48: the run over a frame for each outcome of the comparison; at the boundary PHASE and IDX are as before. -/
theorem frameFromBoundary : Obligations.FrameFromBoundary := by
  refine ⟨fun f stored s hf hp hi => ⟨f.length_bytesWith stored, ?ok, ?bad⟩, fun _ _ => rfl⟩
  case ok =>
    rintro rfl
    have hrun := run_frame hf hp hi
    rw [Regs.afterFrame, Regs.withBody, ← hp, ← hi] at hrun
    exact hrun
  case bad => exact run_badFrame hf hp hi

/-- Settles O50: the bytes leave the parser in SIG or in BadSignature, and `END` in BadSignature from either. -/
theorem badSignatureStream : Obligations.BadSignatureStream := by
  intro buf s hbuf
  have hstart := runWords_start true s
  obtain ⟨t, es, hrun, ht, hes⟩ := run_notSignature (s := { s with regs := Regs.started true, ev := Events.none }) rfl hbuf
  obtain ⟨r, e, hend, ⟨hp, herr, hephase⟩, he⟩ := EndCase.badSignature ht
  refine ⟨_, _, run_parse (runWords_append hstart hrun) hend, hp, herr, hephase, ?_⟩
  exact List.forall_mem_append.2 ⟨List.forall_mem_cons.2 ⟨Events.none_noFrame, hes⟩, List.forall_mem_singleton.2 he⟩

/-- Settles O51: the frames lead to the boundary, where `END` is `done`. -/
theorem goodStreamParses : Obligations.GoodStreamParses := by
  intro sig fs s hfs
  obtain ⟨t, hrun, ht, hport⟩ := run_goodStream sig hfs s
  exact ⟨_, run_parse hrun (.done ht.phase ht.idx), rfl, ht.idx, ht.sigm, ht.nchunk, ht.err, ht.perr, hport⟩

/-- Settles O52: the frame after the good ones ends in ERR, where the tail is discarded and `END` does nothing. -/
theorem mismatchStream : Obligations.MismatchStream := by
  intro sig fs f stored tail s hfs hf hne
  obtain ⟨t, hgood, ht, -⟩ := run_goodStream sig hfs s
  have hframe := run_badFrame hf ht.phase ht.idx hne
  obtain ⟨e, htail⟩ := run_discarded (s := { t with regs := t.regs.afterBadFrame f stored, ev := Events.emitErr }) tail rfl
  rw [List.replicate_succ', ← List.append_assoc]
  exact ⟨_, run_parse (run_start_append (run_start_append hgood hframe) htail) (.ignored rfl), rfl, rfl, rfl, rfl, ht.nchunk⟩

/-- Settles O53: either kind of rest ends within a frame, where `END` raises Truncated. -/
theorem truncatedStream : Obligations.TruncatedStream := by
  intro sig fs rest s hfs hne hshort
  obtain ⟨t, hgood, ht, -⟩ := run_goodStream sig hfs s
  have hrest : RunsIntoFrame t rest := by
    rcases hshort with hlt | ⟨l, more, rfl, hlt⟩
    · exact run_shortLength ht.phase ht.idx hne hlt
    · exact run_shortFrame ht.phase ht.idx hlt
  obtain ⟨u, es, hrun, hlen, hes, hmid, hcount⟩ := hrest
  exact ⟨_, es, run_parse (run_start_append hgood hrun) hmid.endCase, hlen, hes, rfl, rfl, hcount.trans ht.nchunk⟩

end Sys2Proof.Proofs

/-! PROOFS. The control commands `NOP`, `START` and `END`, and the reserved words (R161 to R164): their next states, what holds
once a stream has ended (R166), the phase transition table (R167), and a stream's independence of what went before (R210). -/

namespace Sys2Proof.Machine

/-! ### From the cases of `END` and of an edge to their next states -/

/-- The case that the registers meet gives the whole next state, for every operand. -/
theorem exec_endStream_of_case {s : State} {r : Regs} {e : Events} (d : Byte) (h : EndCase s.regs r e) :
    exec (.endStream d) s = .next { s with regs := r, ev := e } := by
  obtain ⟨r', e', hexec, hcase⟩ := execEndStream_case d s
  obtain ⟨rfl, rfl⟩ := h.unique hcase
  exact hexec

/-- The case that the registers and the nearest sample meet gives the whole next state. -/
theorem step_of_case {s : State} {p : PortSample} {rest : List PortSample} {r : Regs} {e : Events}
    (hport : s.port = p :: rest) (h : EdgeCase s.regs (p :: rest) r e) : step s = .next ⟨r, e, rest⟩ := by
  obtain ⟨r', e', hstep, hcase⟩ := step_case s
  rw [hport] at hstep hcase
  obtain ⟨rfl, rfl⟩ := h.unique hcase
  exact hstep

/-! ### Reserved words (R86) -/

/-- The upper half of the opcodes is the half with the top bit set. -/
theorem four_le_of_getLsbD_two {op : BitVec 3} (h : op.getLsbD 2 = true) : 4#3 ≤ op := by
  revert op
  decide

theorem decode_of_bit10 {w : CmdWord} (h : w.getLsbD 10 = true) : decode w = .reserved (.opcode (opField w)) := by
  have hop : 4#3 ≤ opField w := four_le_of_getLsbD_two (by simpa [opField] using h)
  have hdec := decode_reservedOpcode (operandField w) hop
  rwa [opField_append_operandField] at hdec

theorem decode_of_spareBits {w : CmdWord} (hop : w.extractLsb' 8 3 = 1#3) (hspare : w.extractLsb' 1 7 ≠ 0#7) :
    decode w = .reserved (.startOperand (operandField w)) := by
  have hbits : (operandField w).extractLsb' 1 7 = w.extractLsb' 1 7 := BitVec.extractLsb'_extractLsb'_of_le (by decide)
  have hword : 1#3 ++ operandField w = w := hop ▸ opField_append_operandField w
  have hdec := decode_startOperand (hbits.trans_ne hspare)
  rwa [hword] at hdec

/-- R86's condition on the bits of a word makes it reserved. -/
theorem decode_reserved_of_bits {w : CmdWord}
    (h : w.getLsbD 10 = true ∨ (w.extractLsb' 8 3 = 1#3 ∧ w.extractLsb' 1 7 ≠ 0#7)) : ∃ why, decode w = .reserved why := by
  rcases h with h10 | ⟨hop, hspare⟩
  · exact ⟨_, decode_of_bit10 h10⟩
  · exact ⟨_, decode_of_spareBits hop hspare⟩

/-! ### `START` (R162) -/

theorem exec_start (sig : Bool) (s : State) : exec (.start (if sig then 0x01#8 else 0x00#8)) s =
    .next { s with regs := Regs.started sig, ev := Events.none } := by
  cases sig with
  | true => exact execStart_legal (d := 0x01#8) rfl s
  | false => exact execStart_legal (d := 0x00#8) rfl s

/-- What STATUS reads after `START`: PHASE and SIGM alone are not 0. -/
theorem Regs.status_started (sig : Bool) : (Regs.started sig).status = if sig then 0x41#32 else 0x02#32 := by
  cases sig <;> decide

/-- What the host reads in STATUS after a command whose next state is known. -/
theorem status_of_exec {i : Instr} {s t : State} {r : Regs} {e : Events} (h : exec i s = .next t)
    (hexec : exec i s = .next { s with regs := r, ev := e }) : t.rdData 0#4 = r.status := by
  rw [hexec] at h
  cases h
  rfl

/-- A run of words depends on the registers alone: from equal registers it has the same events and ends in equal registers. -/
theorem runWords_of_regs_eq (ws : List CmdWord) (s s' : State) (h : s'.regs = s.regs) :
    ∃ t t' es, runWords ws s = some (t, es) ∧ runWords ws s' = some (t', es) ∧ t.regs = t'.regs := by
  induction ws generalizing s s' with
  | nil => exact ⟨s, s', [], runWords_nil s, runWords_nil s', h.symm⟩
  | cons w ws ih =>
    obtain ⟨r, e, hword, hlocal⟩ := runWord_local w s
    obtain ⟨t, t', es, hrun, hrun', hregs⟩ := ih { s with regs := r, ev := e } { s' with regs := r, ev := e } rfl
    rw [runWords_cons ws hword rfl, runWords_cons ws (hlocal s' h) rfl, hrun, hrun']
    exact ⟨t, t', e :: es, rfl, rfl, hregs⟩

/-! ### After the end of a stream (R166) -/

theorem EndCase.done_or_err {r r' : Regs} {e : Events} (h : EndCase r r' e) (hactive : r.phase.active = true) :
    r'.phase = .done ∨ r'.phase = .err := by
  cases h with
  | done => exact .inl rfl
  | inLen | inFrame | inSig => exact .inr rfl
  | inactive hp => rcases hp with hp | hp <;> simp [hp, Phase.active] at hactive
  | ignored hp => exact .inr hp

/-- In DONE a command is `START`, or has no effect, or is a protocol error (R141, R163). -/
theorem CommandCase.of_done {r r' : Regs} {i : Instr} {e : Events} (h : CommandCase r i r' e) (hp : r.phase = .done) :
    (∃ d, i = .start d) ∨ (r' = r ∧ e = Events.none) ∨ (r' = { r with perr := true } ∧ e = Events.emitPerr) := by
  cases h with
  | nop => exact .inr (.inl ⟨rfl, rfl⟩)
  | start d | startSpare d => exact .inl ⟨d, rfl⟩
  | byte _ _ _ hb => exact .inr (.inr (hb.unique (.inactive (.inr hp))))
  | endStream _ _ _ he => exact .inr (.inr (he.unique (.inactive (.inr hp))))

theorem EdgeCase.of_done {r r' : Regs} {p : PortSample} {rest : List PortSample} {e : Events}
    (h : EdgeCase r (p :: rest) r' e) (hp : r.phase = .done) :
    p.rstN = false ∨ (p.cmdValid = true ∧ ∃ d, decode p.cmd = .command (.start d)) ∨
    (r' = r ∧ e = Events.none) ∨ (r' = { r with perr := true } ∧ e = Events.emitPerr) := by
  cases h with
  | reset => exact .inl rfl
  | idle => exact .inr (.inr (.inl ⟨rfl, rfl⟩))
  | reserved => exact .inr (.inr (.inr ⟨rfl, rfl⟩))
  | command _ _ _ _ _ hd hc =>
    rcases hc.of_done hp with ⟨d, rfl⟩ | hkept
    · exact .inr (.inl ⟨rfl, d, hd⟩)
    · exact .inr (.inr hkept)

/-! ### The phase transition table (R167) -/

section Table
variable {r : Regs} {b : Byte}
theorem tableByte_sig (hp : r.phase = .sig) :
    tableByte r b = if b = sigRomAt r.idx then (if r.idx < 7#3 then .sig else .len) else .err := by
  simp only [tableByte, hp]
theorem tableByte_len (hp : r.phase = .len) : tableByte r b = if r.idx < 3#3 then .len else .type := by
  simp only [tableByte, hp]
theorem tableByte_type (hp : r.phase = .type) :
    tableByte r b = if r.idx < 3#3 then .type else if r.rem = 0#32 then .crc else .data := by
  simp only [tableByte, hp]
theorem tableByte_data (hp : r.phase = .data) : tableByte r b = if 1#32 < r.rem then .data else .crc := by
  simp only [tableByte, hp]
theorem tableByte_crc (hp : r.phase = .crc) : tableByte r b =
    if r.idx < 3#3 then .crc else if shiftIn r.crcrx b = crcFinal r.crcacc then .len else .err := by
  simp only [tableByte, hp]
theorem tableByte_inactive (hp : r.phase = .idle ∨ r.phase = .done ∨ r.phase = .err) : tableByte r b = r.phase := by
  rcases hp with hp | hp | hp <;> simp only [tableByte, hp]
end Table

theorem Idx.lt_seven_of_ne {i : Idx} (h : i ≠ 7#3) : i < 7#3 := by bv_omega

/-- In states that meet the invariants the table's conditions `IDX < 3` and `1 < REM` are the machine's `IDX ≠ 3` and `REM ≠ 1`
(log entry 8). -/
theorem ByteCase.phase_eq_table {b : Byte} {r r' : Regs} {e : Events} (h : ByteCase b r r' e) (hr : r.Inv) :
    r'.phase = tableByte r b := by
  have hlt (hp : r.phase = .len ∨ r.phase = .type ∨ r.phase = .crc) (hi : r.idx ≠ 3#3) : r.idx < 3#3 :=
    BitVec.lt_of_le_ne (hr.fieldIdx hp) hi
  cases h with
  | sigLast hp hb hi => simp [tableByte_sig hp, hb, hi]
  | sigNext hp hb hi => simp [tableByte_sig hp, hb, Idx.lt_seven_of_ne hi, hp]
  | sigBad hp hb => simp [tableByte_sig hp, hb]
  | lenLast hp hi => simp [tableByte_len hp, hi]
  | lenNext hp hi => simp [tableByte_len hp, hlt (.inl hp) hi, hp]
  | typeLastEmpty hp hi hz => simp [tableByte_type hp, hi, hz]
  | typeLast hp hi hz => simp [tableByte_type hp, hi, hz]
  | typeNext hp hi => simp [tableByte_type hp, hlt (.inr (.inl hp)) hi, hp]
  | dataLast hp hone => simp [tableByte_data hp, hone]
  | dataNext hp hone =>
    obtain ⟨-, hpos, -⟩ := hr.inData hp
    simp [tableByte_data hp, BitVec.lt_of_le_ne hpos (Ne.symm hone), hp]
  | crcOk hp hi hc => simp [tableByte_crc hp, hi, hc]
  | crcBad hp hi hc => simp [tableByte_crc hp, hi, hc]
  | crcNext hp hi => simp [tableByte_crc hp, hlt (.inr (.inr hp)) hi, hp]
  | inactive hp => exact (tableByte_inactive (hp.imp_right .inl)).symm
  | ignored hp => exact (tableByte_inactive (.inr (.inr hp))).symm

theorem EndCase.phase_eq_table {r r' : Regs} {e : Events} (h : EndCase r r' e) : r'.phase = tableEnd r := by
  cases h with
  | done hp hi | inLen hp hi => simp [tableEnd, hp, hi]
  | inFrame hp => rcases hp with hp | hp | hp <;> simp [tableEnd, hp]
  | inSig hp | ignored hp => simp [tableEnd, hp]
  | inactive hp => rcases hp with hp | hp <;> simp [tableEnd, hp]

/-- A presented word leads to its cell of the table. -/
theorem EdgeCase.phase_eq_table {r r' : Regs} {w : CmdWord} {rest : List PortSample} {e : Events}
    (h : EdgeCase r (PortSample.ofCommand w :: rest) r' e) (hr : r.Inv) : r'.phase = tablePhase r w := by
  cases h with
  | reserved _ _ why hd => simp only [tablePhase, hd]
  | command _ _ i _ _ hd hc =>
    cases hc with
    | nop => simp only [tablePhase, hd]
    | start => simp only [tablePhase, hd, Regs.started_phase]
    | startSpare d hspare =>
      obtain ⟨hwf, -⟩ := decode_command_inv hd
      exact absurd hwf (Bool.eq_false_iff.1 hspare)
    | byte _ _ _ hb => simp only [tablePhase, hd, hb.phase_eq_table hr]
    | endStream _ _ _ he => simp only [tablePhase, hd, he.phase_eq_table]

end Sys2Proof.Machine

namespace Sys2Proof.Proofs

open Sys2Proof.Machine

/-! ### The obligations on the control commands -/

/-- Settles O21: the step of a word is a case of the edge, whose phase the table gives; a reset edge leaves the reset values. -/
theorem phaseFollowsTransitionTable : Obligations.PhaseFollowsTransitionTable := by
  refine ⟨fun s t w rest hinv hport hstep => ?_, fun s t valid w rest hport hstep => ?_⟩
  · obtain ⟨-, hcase⟩ := step_inv hstep
    rw [hport] at hcase
    exact hcase.phase_eq_table hinv
  · rw [step_of_case hport (.reset valid w rest)] at hstep
    cases hstep
    rfl

/-- Settles O26: the cases of `END` in an active phase, and the cases of an edge in DONE. -/
theorem endIsFinal : Obligations.EndIsFinal := by
  refine ⟨fun d s t hactive hexec => ?_, fun s t p rest hport hp hstep => ?_⟩
  · obtain ⟨-, hcase⟩ := execEndStream_inv (d := d) hexec
    exact hcase.done_or_err hactive
  · obtain ⟨-, hcase⟩ := step_inv hstep
    rw [hport] at hcase
    exact hcase.of_done hp

/-- Settles O56: `START` leaves the same registers in both runs, and from there the words do the same. -/
theorem startErasesHistory : Obligations.StartErasesHistory := by
  intro sig ws s s'
  obtain ⟨t, t', es, hrun, hrun', hregs⟩ := runWords_of_regs_eq ws { s with regs := Regs.started sig, ev := Events.none }
    { s' with regs := Regs.started sig, ev := Events.none } rfl
  exact ⟨t, t', _, runWords_append (runWords_start sig s) hrun, runWords_append (runWords_start sig s') hrun', hregs⟩

/-- Settles O6: the bits make the word reserved, and an edge with a reserved word is the protocol error. -/
theorem reservedWordIsProtocolError : Obligations.ReservedWordIsProtocolError := by
  intro s w rest hport hbits
  obtain ⟨why, hd⟩ := decode_reserved_of_bits hbits
  exact step_of_case hport (.reserved w rest why hd)

/-- Settles O11: an edge with a `NOP` and an idle edge both keep the registers and record no event. -/
theorem nopHasNoEffect : Obligations.NopHasNoEffect := by
  refine ⟨fun d s => rfl, fun s d w rest => ?_⟩
  have hnop := step_of_case (s := { s with port := PortSample.ofCommand (encode (.nop d)) :: rest }) rfl
    (.command _ rest _ _ _ (decode_encode rfl) (.nop d))
  have hidle := step_of_case (s := { s with port := ⟨true, false, w⟩ :: rest }) rfl (.idle w rest)
  exact hnop.trans hidle.symm

/-- Settles O12: `START` leaves the registers `Regs.started`, whose STATUS is read off. -/
theorem startReinitialises : Obligations.StartReinitialises :=
  ⟨fun s sig => exec_start sig s,
    fun _ h => (status_of_exec h (exec_start true State.reset)).trans (Regs.status_started true),
    fun _ h => (status_of_exec h (exec_start false State.reset)).trans (Regs.status_started false)⟩

/-- Settles O14: one case of `END` for each line of the rule. -/
theorem endStreamByPhase : Obligations.EndStreamByPhase := by
  refine fun d s => ⟨fun hp hi => exec_endStream_of_case d (.done hp hi), fun hp => exec_endStream_of_case d ?truncated,
    fun hp => ?badSignature, fun hp => exec_endStream_of_case d (.inactive hp),
    fun hp => exec_endStream_of_case d (.ignored hp)⟩
  case truncated =>
    rcases hp with ⟨hp, hi⟩ | hp
    · exact .inLen hp hi
    · exact .inFrame hp
  case badSignature =>
    have hcase := EndCase.inSig hp
    rw [Regs.raise_of_phase hp] at hcase
    exact exec_endStream_of_case d hcase

end Sys2Proof.Proofs

/-! PROOFS. The frame errors (R175, R180), the protocol error (R184), phase ERR (R183), and the signature stage, which needs a
stream begun with `START 1` (R176). -/

namespace Sys2Proof.Machine

/-! ### Which command raises which frame error (R175), and what `raise` leaves (R180) -/

/-- The command raises the frame error from the registers `r`: one case per `raise` in R136, R140 and R163. -/
inductive Raises (r : Regs) : Instr → FrameError → Prop where
  | byteInSig (b : Byte) (hp : r.phase = .sig) (hb : b ≠ sigRomAt r.idx) : Raises r (.byte b) .badSignature
  | endInSig (d : Byte) (hp : r.phase = .sig) : Raises r (.endStream d) .badSignature
  | endInLen (d : Byte) (hp : r.phase = .len) (hi : r.idx ≠ 0#3) : Raises r (.endStream d) .truncated
  | endInFrame (d : Byte) (hp : r.phase = .type ∨ r.phase = .data ∨ r.phase = .crc) : Raises r (.endStream d) .truncated
  | byteInCrc (b : Byte) (hp : r.phase = .crc) (hi : r.idx = 3#3) (hc : shiftIn r.crcrx b ≠ crcFinal r.crcacc) :
      Raises r (.byte b) .checksumMismatch

theorem Raises.active {r : Regs} {i : Instr} {f : FrameError} (h : Raises r i f) : r.phase.active = true := by
  cases h with
  | byteInSig _ hp | endInSig _ hp | endInLen _ hp | byteInCrc _ hp => rw [hp]; rfl
  | endInFrame _ hp => rcases hp with hp | hp | hp <;> rw [hp] <;> rfl

/-- A raised error is `raise` on the registers before the command, but for the CRCRX that the mismatching byte has written. -/
theorem Raises.commandCase {r : Regs} {i : Instr} {f : FrameError} (h : Raises r i f) :
    ∃ x, CommandCase r i ({ r with crcrx := x }.raise f) Events.emitErr ∧ (f ≠ .checksumMismatch → x = r.crcrx) := by
  cases h with
  | byteInSig b hp hb => exact ⟨r.crcrx, .byte b _ _ (.sigBad hp hb), fun _ => rfl⟩
  | endInSig d hp => exact ⟨r.crcrx, .endStream d _ _ (.inSig hp), fun _ => rfl⟩
  | endInLen d hp hi => exact ⟨r.crcrx, .endStream d _ _ (.inLen hp hi), fun _ => rfl⟩
  | endInFrame d hp => exact ⟨r.crcrx, .endStream d _ _ (.inFrame hp), fun _ => rfl⟩
  | byteInCrc b hp hi hc => exact ⟨shiftIn r.crcrx b, .byte b _ _ (.crcBad hp hi hc), absurd rfl⟩

section Command
variable {r r' : Regs} {i : Instr} {e : Events} (h : CommandCase r i r' e)
include h

theorem CommandCase.raises_of_err (he : e.err = true) : ∃ f, Raises r i f := by
  cases h with
  | nop | start | startSpare => cases he
  | byte b _ _ hb =>
    cases hb with
    | sigBad hp hne => exact ⟨_, .byteInSig b hp hne⟩
    | crcBad hp hi hc => exact ⟨_, .byteInCrc b hp hi hc⟩
    | _ => cases he
  | endStream d _ _ hend =>
    cases hend with
    | inLen hp hi => exact ⟨_, .endInLen d hp hi⟩
    | inFrame hp => exact ⟨_, .endInFrame d hp⟩
    | inSig hp => exact ⟨_, .endInSig d hp⟩
    | done | inactive | ignored => cases he

/-- A command emits `err` and leaves a code exactly where it raises the error of that code. -/
theorem CommandCase.err_and_code_iff (f : FrameError) : (e.err = true ∧ r'.err = f.errCode) ↔ Raises r i f := by
  refine ⟨fun ⟨he, hcode⟩ => ?raises, fun hf => ?emits⟩
  case raises =>
    obtain ⟨g, hg⟩ := h.raises_of_err he
    obtain ⟨x, hc, -⟩ := hg.commandCase
    obtain ⟨rfl, -⟩ := h.unique hc
    exact FrameError.errCode_injective hcode ▸ hg
  case emits =>
    obtain ⟨x, hc, -⟩ := hf.commandCase
    obtain ⟨rfl, rfl⟩ := h.unique hc
    exact ⟨rfl, rfl⟩

end Command

/-- An edge that emits `err` has executed a command that raises. -/
theorem EdgeCase.command_of_err {r r' : Regs} {ps : List PortSample} {e : Events} (h : EdgeCase r ps r' e)
    (he : e.err = true) : ∃ i, CommandCase r i r' e := by
  cases h with
  | nothing | reset | idle | reserved => cases he
  | command _ _ i _ _ _ hc => exact ⟨i, hc⟩

section Causes
variable {r : Regs} {i : Instr}

theorem raises_badSignature_iff : Raises r i .badSignature ↔
    r.phase = .sig ∧ ((∃ b, i = .byte b ∧ b ≠ sigRomAt r.idx) ∨ ∃ d, i = .endStream d) := by
  constructor
  · intro h
    cases h with
    | byteInSig b hp hb => exact ⟨hp, .inl ⟨b, rfl, hb⟩⟩
    | endInSig d hp => exact ⟨hp, .inr ⟨d, rfl⟩⟩
  · rintro ⟨hp, ⟨b, rfl, hb⟩ | ⟨d, rfl⟩⟩
    · exact .byteInSig b hp hb
    · exact .endInSig d hp

theorem raises_truncated_iff : Raises r i .truncated ↔
    (∃ d, i = .endStream d) ∧
      ((r.phase = .len ∧ r.idx ≠ 0#3) ∨ r.phase = .type ∨ r.phase = .data ∨ r.phase = .crc) := by
  constructor
  · intro h
    cases h with
    | endInLen d hp hi => exact ⟨⟨d, rfl⟩, .inl ⟨hp, hi⟩⟩
    | endInFrame d hp => exact ⟨⟨d, rfl⟩, .inr hp⟩
  · rintro ⟨⟨d, rfl⟩, ⟨hp, hi⟩ | hp⟩
    · exact .endInLen d hp hi
    · exact .endInFrame d hp

theorem raises_checksumMismatch_iff : Raises r i .checksumMismatch ↔
    ∃ b, i = .byte b ∧ r.phase = .crc ∧ r.idx = 3#3 ∧ shiftIn r.crcrx b ≠ crcFinal r.crcacc := by
  constructor
  · intro h
    cases h with
    | byteInCrc b hp hi hc => exact ⟨b, rfl, hp, hi, hc⟩
  · rintro ⟨b, rfl, hp, hi, hc⟩
    exact .byteInCrc b hp hi hc

end Causes

/-! ### Phase ERR (R183) -/

/-- In ERR a command is `START`, or has no effect (R142, R161, R163). -/
theorem CommandCase.of_phase_err {r r' : Regs} {i : Instr} {e : Events} (h : CommandCase r i r' e) (hp : r.phase = .err) :
    (∃ d, i = .start d) ∨ (r' = r ∧ e = Events.none) := by
  cases h with
  | nop => exact .inr ⟨rfl, rfl⟩
  | start d | startSpare d => exact .inl ⟨d, rfl⟩
  | byte _ _ _ hb => exact .inr (hb.unique (.ignored hp))
  | endStream _ _ _ he => exact .inr (he.unique (.ignored hp))

theorem EdgeCase.of_phase_err {r r' : Regs} {p : PortSample} {rest : List PortSample} {e : Events}
    (h : EdgeCase r (p :: rest) r' e) (hp : r.phase = .err) :
    p.rstN = false ∨ (p.cmdValid = true ∧ ∃ d, decode p.cmd = .command (.start d)) ∨
    (r' = r ∧ e = Events.none) ∨
    ((∃ why, decode p.cmd = .reserved why) ∧ r' = { r with perr := true } ∧ e = Events.emitPerr) := by
  cases h with
  | reset => exact .inl rfl
  | idle => exact .inr (.inr (.inl ⟨rfl, rfl⟩))
  | reserved _ _ why hd => exact .inr (.inr (.inr ⟨⟨why, hd⟩, rfl, rfl⟩))
  | command _ _ _ _ _ hd hc =>
    rcases hc.of_phase_err hp with ⟨d, rfl⟩ | hkept
    · exact .inr (.inl ⟨rfl, d, hd⟩)
    · exact .inr (.inr (.inl hkept))

/-! ### The protocol error (R184) -/

/-- The word is a protocol error in the registers `r`: it is reserved, or `BYTE` or `END` in IDLE or DONE. -/
def IsProtocolError (r : Regs) (w : CmdWord) : Prop :=
  (∃ why, decode w = .reserved why) ∨
  ((r.phase = .idle ∨ r.phase = .done) ∧
    ((∃ b, decode w = .command (.byte b)) ∨ ∃ d, decode w = .command (.endStream d)))

theorem ByteCase.inactive_of_perr {b : Byte} {r r' : Regs} {e : Events} (h : ByteCase b r r' e) (he : e.perr = true) :
    r.phase = .idle ∨ r.phase = .done := by
  cases h with
  | inactive hp => exact hp
  | _ => cases he

theorem EndCase.inactive_of_perr {r r' : Regs} {e : Events} (h : EndCase r r' e) (he : e.perr = true) :
    r.phase = .idle ∨ r.phase = .done := by
  cases h with
  | inactive hp => exact hp
  | _ => cases he

theorem EdgeCase.isProtocolError_of_perr {r r' : Regs} {w : CmdWord} {rest : List PortSample} {e : Events}
    (h : EdgeCase r (PortSample.ofCommand w :: rest) r' e) (he : e.perr = true) : IsProtocolError r w := by
  cases h with
  | reserved _ _ why hd => exact .inl ⟨why, hd⟩
  | command _ _ i _ _ hd hc =>
    cases hc with
    | nop | start => cases he
    | startSpare d hspare =>
      obtain ⟨hwf, -⟩ := decode_command_inv hd
      exact absurd hwf (Bool.eq_false_iff.1 hspare)
    | byte b _ _ hb => exact .inr ⟨hb.inactive_of_perr he, .inl ⟨b, hd⟩⟩
    | endStream d _ _ hend => exact .inr ⟨hend.inactive_of_perr he, .inr ⟨d, hd⟩⟩

theorem IsProtocolError.edgeCase {r : Regs} {w : CmdWord} (h : IsProtocolError r w) (rest : List PortSample) :
    EdgeCase r (PortSample.ofCommand w :: rest) { r with perr := true } Events.emitPerr := by
  rcases h with ⟨why, hd⟩ | ⟨hp, ⟨b, hd⟩ | ⟨d, hd⟩⟩
  · exact .reserved w rest why hd
  · exact .command w rest _ _ _ hd (.byte b _ _ (.inactive hp))
  · exact .command w rest _ _ _ hd (.endStream d _ _ (.inactive hp))

/-! ### The signature stage (R176) -/

/-- The parser is in SIG, or an error of SIG is recorded. -/
def Regs.InSigStage (r : Regs) : Prop := r.phase = .sig ∨ r.ephase = .sig

/-- `BYTE` never enters the signature stage: an error records SIG only where it was raised in SIG. -/
theorem ByteCase.inSigStage {b : Byte} {r r' : Regs} {e : Events} (h : ByteCase b r r' e) (hs : r'.InSigStage) :
    r.InSigStage := by
  cases h with
  | sigLast | lenLast | typeLastEmpty | typeLast | dataLast | crcOk => exact .inr (hs.resolve_left nofun)
  | sigBad | crcBad => exact .inl (hs.resolve_left nofun)
  | sigNext | lenNext | typeNext | dataNext | crcNext | inactive | ignored => exact hs

theorem EndCase.inSigStage {r r' : Regs} {e : Events} (h : EndCase r r' e) (hs : r'.InSigStage) : r.InSigStage := by
  cases h with
  | done => exact .inr (hs.resolve_left nofun)
  | inLen | inFrame | inSig => exact .inl (hs.resolve_left nofun)
  | inactive | ignored => exact hs

theorem Regs.reset_not_inSigStage : ¬ Regs.reset.InSigStage := by
  rintro (hp | hp) <;> cases hp

/-- `START` enters the signature stage only as `START 1`. -/
theorem Regs.started_sigm_of_inSigStage {sig : Bool} (hs : (Regs.started sig).InSigStage) :
    (Regs.started sig).sigm = true := by
  cases sig with
  | true => rfl
  | false => rcases hs with hp | hp <;> cases hp

section SigNeedsStart1
variable {r r' : Regs} {e : Events} (hr : r.InSigStage → r.sigm = true)
include hr

theorem CommandCase.sigm_of_inSigStage {i : Instr} (h : CommandCase r i r' e) (hs : r'.InSigStage) : r'.sigm = true := by
  cases h with
  | nop | startSpare => exact hr hs
  | start => exact Regs.started_sigm_of_inSigStage hs
  | byte _ _ _ hb => exact hb.sigm_eq.trans (hr (hb.inSigStage hs))
  | endStream _ _ _ hend => exact hend.sigm_eq.trans (hr (hend.inSigStage hs))

theorem EdgeCase.sigm_of_inSigStage {ps : List PortSample} (h : EdgeCase r ps r' e) (hs : r'.InSigStage) :
    r'.sigm = true := by
  cases h with
  | nothing | idle | reserved => exact hr hs
  | reset => exact absurd hs Regs.reset_not_inSigStage
  | command _ _ _ _ _ _ hc => exact hc.sigm_of_inSigStage hr hs

end SigNeedsStart1

end Sys2Proof.Machine

namespace Sys2Proof.Proofs

open Sys2Proof.Machine

/-! ### The obligations on errors -/

/-- Settles O23: the edge has executed a raising command, whose registers after it are `raise` on those before, but for CRCRX. -/
theorem raiseRecordsPhaseAndCode : Obligations.RaiseRecordsPhaseAndCode := by
  intro s t hstep herr
  obtain ⟨-, hcase⟩ := step_inv hstep
  obtain ⟨i, hcmd⟩ := hcase.command_of_err herr
  obtain ⟨f, hf⟩ := hcmd.raises_of_err herr
  obtain ⟨x, hraise, hx⟩ := hf.commandCase
  obtain ⟨hregs, -⟩ := hcmd.unique hraise
  rw [hregs]
  exact ⟨hf.active, rfl, rfl, f.errCode_ne_noError, rfl, rfl, rfl, rfl, rfl, rfl, rfl, rfl,
    fun hcode => hx fun hmismatch => hcode (congrArg FrameError.errCode hmismatch)⟩

/-- Settles O24: a command emits `err` with a code exactly where it raises that error, and each error has its causes. -/
theorem frameErrorCauses : Obligations.FrameErrorCauses := by
  refine ⟨rfl, fun i s t hexec => ?_⟩
  obtain ⟨-, hcase⟩ := exec_inv hexec
  exact ⟨(hcase.err_and_code_iff .badSignature).trans raises_badSignature_iff,
    (hcase.err_and_code_iff .truncated).trans raises_truncated_iff,
    (hcase.err_and_code_iff .checksumMismatch).trans raises_checksumMismatch_iff⟩

/-- Settles O25: the cases of an edge in ERR. -/
theorem errLeftOnlyByStartOrReset : Obligations.ErrLeftOnlyByStartOrReset := by
  intro s t p rest hport hp hstep
  obtain ⟨-, hcase⟩ := step_inv hstep
  rw [hport] at hcase
  exact hcase.of_phase_err hp

/-- Settles O27: `perr` comes from a protocol error, which is the one case of the edge for its word; and an edge with neither
reset nor `START` leaves PERR where it is set. -/
theorem protocolErrorCauses : Obligations.ProtocolErrorCauses := by
  intro s t w rest hport hstep
  obtain ⟨-, hcase⟩ := step_inv hstep
  rw [hport] at hcase
  have heffect (hw : IsProtocolError s.regs w) : t.regs = { s.regs with perr := true } ∧ t.ev = Events.emitPerr :=
    hcase.unique (hw.edgeCase rest)
  refine ⟨⟨hcase.isProtocolError_of_perr, fun hw => ?_⟩, fun he => heffect (hcase.isProtocolError_of_perr he),
    fun hset hstart => ?_⟩
  · obtain ⟨-, hev⟩ := heffect hw
    rw [hev, Events.emitPerr_perr]
  · rcases hcase.reset_or_start_or_sticky with (hrst | ⟨-, d, hd⟩) | ⟨-, hsticky⟩
    · cases hrst
    · exact absurd hd (hstart d)
    · exact hsticky hset

/-- Settles O33: the reset state is outside the signature stage, and every edge keeps that this stage needs SIGM. -/
theorem signatureStageNeedsStart1 : Obligations.SignatureStageNeedsStart1 := by
  refine ⟨fun hs => absurd hs Regs.reset_not_inSigStage, fun s t hinv hstep => ?_⟩
  obtain ⟨-, hcase⟩ := step_inv hstep
  exact hcase.sigm_of_inSigStage hinv

end Sys2Proof.Proofs

/-! PROOFS. The reset edge, the edge at an empty port and the reads of the reset state (R200, R201), and a stream parsed in the
mode that does not match it (R212). -/

namespace Sys2Proof.Machine

/-! ### An edge with nothing presented -/

/-- At an empty port an edge clears the event record and keeps the rest of the state. -/
theorem step_of_port_nil {s : State} (hport : s.port = []) : step s = .next { s with ev := Events.none } := by
  have hafter : s.afterEdge = s := by rw [State.afterEdge, hport, List.tail_nil, ← hport]
  rw [step_nil hport, hafter]
  rfl

/-! ### Fewer bytes than the length field announces (R139) -/

/-- `exec_byte_of_case` for the meaning of `BYTE` itself, as runs over a stream take it. -/
theorem execByte_of_case {b : Byte} {s : State} {r : Regs} {e : Events} (h : ByteCase b s.regs r e) :
    execByte b s = .next { s with regs := r, ev := e } :=
  exec_byte_of_case h

/-- Payload bytes that leave the payload unfinished: each is forwarded without the last mark, and REM counts them down. -/
theorem run_partialPayload {s : State} (m : List Byte) (hp : s.regs.phase = .data) (hm : m.length < s.regs.rem.toNat) :
    ∃ e, runWords (byteWords m) s =
      some ({ s with regs := { s.regs with rem := s.regs.rem - BitVec.ofNat 32 m.length, crcacc := crcFold s.regs.crcacc m }
                     ev := e }, m.map fun b => Events.emitPayload b false) := by
  induction m generalizing s with
  | nil =>
    have hrem : s.regs.rem - BitVec.ofNat 32 ([] : List Byte).length = s.regs.rem := BitVec.sub_zero _
    rw [hrem]
    exact ⟨s.ev, runWords_nil s⟩
  | cons b m ih =>
    rw [List.length_cons] at hm
    have hexec := execByte_of_case (b := b) (.dataNext hp (show s.regs.rem ≠ 1#32 by bv_omega))
    obtain ⟨e, hrun⟩ := ih
      (s := { s with regs := { s.regs with crcacc := crcUpd s.regs.crcacc b, rem := s.regs.rem - 1#32 }
                     ev := Events.emitPayload b false }) hp (show m.length < (s.regs.rem - 1#32).toNat by bv_omega)
    have hrem : s.regs.rem - BitVec.ofNat 32 (b :: m).length = s.regs.rem - 1#32 - BitVec.ofNat 32 m.length := by
      rw [List.length_cons]; bv_omega
    rw [hrem]
    exact ⟨e, runWords_byte hexec hrun⟩

/-! ### The signature read as a length and a type (R212) -/

/-- The signature as two big-endian words (R90, R93). -/
theorem sigRom_eq_unfold4 : sigRom = unfold4 0x89504E47#32 ++ unfold4 0x0D0A1A0A#32 := by decide

/-- From the frame boundary the signature is a length and a type, with `hdr` at its last byte, and the payload comes next. -/
theorem run_signatureAsHeader {s : State} (hp : s.regs.phase = .len) (hi : s.regs.idx = 0#3) :
    ∃ t, runWords (byteWords sigRom) s = some (t, List.replicate 7 Events.none ++ [Events.emitHdr]) ∧
      t.regs.phase = .data ∧ t.regs.rem = 0x89504E47#32 ∧ t.regs.len = 0x89504E47#32 ∧ t.regs.type = 0x0D0A1A0A#32 := by
  have hlength := run_length 0x89504E47#32 hp hi
  have htype := run_type (s := { s with regs := { s.regs with phase := .type, idx := 0#3, len := 0x89504E47#32
                                                              rem := 0x89504E47#32, crcacc := crcInit }
                                        ev := Events.none }) 0x0D0A1A0A#32 rfl rfl
  rw [sigRom_eq_unfold4]
  have hheader := runBytes_append hlength htype
  exact ⟨_, hheader, rfl, rfl, rfl, rfl⟩

end Sys2Proof.Machine

namespace Sys2Proof.Proofs

open Sys2Proof.Machine

/-! ### The obligations on reset and on the host's choice of mode -/

/-- Settles O57: after `START 0` the signature fills the header and the bytes after it are payload, within which `END` raises
Truncated; after `START 1` the first byte is compared with `SIGROM[0]`. -/
theorem modeMustMatchStream : Obligations.ModeMustMatchStream := by
  refine ⟨fun m s hm => ?start0, fun b s hb => ?start1⟩
  case start0 =>
    obtain ⟨t, hheader, hp, hrem, hlen, htype⟩ :=
      run_signatureAsHeader (s := { s with regs := Regs.started false, ev := Events.none }) rfl rfl
    obtain ⟨e, hpayload⟩ := run_partialPayload m hp (by rw [hrem]; exact hm)
    have hrun := run_start_append (runWords_append (runWords_start false s) hheader) hpayload
    exact ⟨_, _, run_parse hrun (.inFrame (.inr (.inl hp))), rfl, hlen, htype, rfl⟩
  case start1 =>
    have hexec := execByte_of_case (s := { s with regs := Regs.started true, ev := Events.none }) (.sigBad rfl hb)
    have hbyte := runWords_byte (m := []) hexec (runWords_nil _)
    exact ⟨_, runWords_append (runWords_start true s) hbyte, rfl, rfl⟩

/-- Settles O7: the sample is a reset edge, and an edge at an empty port is an idle one. -/
theorem resetEdgeGivesResetState : Obligations.ResetEdgeGivesResetState :=
  ⟨fun _ valid w rest hport => step_of_case hport (.reset valid w rest), fun _ => step_of_port_nil⟩

/-- Settles O9: the sixteen reads of the reset values, and the pins of a state with no event. -/
theorem resetStateReads : Obligations.ResetStateReads :=
  ⟨by decide, rfl, fun _ => rfl⟩

end Sys2Proof.Proofs
